-- ==== Sys2Proof/Word.lean ====
section
/-! DEFINITION. The word types of the unit: bytes of the data space (`u8`), 32-bit registers and addresses
(`u32`, `s32`), as 00_scope.md R10 names them. -/

namespace Sys2Proof

/-- `u8` (R10): one byte of a buffer, one channel sample. -/
abbrev Byte := BitVec 8

/-- `u32` or `s32` (R10): a register value, a byte address, an accumulator in two's complement. -/
abbrev Word := BitVec 32

/-- The bound of the data space, `2^32` (20_memory.md R61). -/
def addressLimit : Nat := 2 ^ 32

end Sys2Proof
end

