-- ==== Sys2Proof/Config.lean ====
section
/-! DEFINITION. The parameters of the unit (00_scope.md R7) and the free values the spec leaves open.
A model takes the OPEN parameters as an argument (R7): `Params` is plain data, a field of the machine's state
that no step changes, so a statement about every state holds for every value of every parameter.
The free values are opaque constants without a body: no proof can learn what they are. -/

namespace Sys2Proof

/-- `LANE_MODE` (R7; 43_vector_mac_lane.md R168). -/
inductive LaneMode where
  | exact
  | tolerant
  deriving DecidableEq, Repr

/-- `OUT_MAP` (R7; 40_color_matrix.md R105): the six permutations of the channel positions, each named by the
positions that `d_0`, `d_1` and `d_2` go to. -/
inductive OutMap where
  | to012 | to021 | to102 | to120 | to201 | to210
  deriving DecidableEq, Repr

/-- A range of data addresses the bus master may read and write without a bus error. -/
structure Region where
  base : Nat
  size : Nat
  deriving DecidableEq, Repr

/-- The parameters of R7. `N_LANES`, `BPP`, `GROUP_BYTES`, `ADDR_W` and `ACC_W` are fixed and stand in the
definitions; `VFN` is `Config.vfnChoice` below, since a state holds no function. -/
structure Params where
  /-- `UNIT_BASE / 256`: the base is a multiple of 256 (R7). -/
  unitPage : BitVec 24
  /-- `IMG_W`. -/
  imgW : BitVec 16
  /-- `IMG_H`. -/
  imgH : BitVec 16
  /-- `VEC_PRESENT`. -/
  vecPresent : Bool
  laneMode : LaneMode
  outMap : OutMap
  /-- `MemOK` as the ranges that respond (the register window is taken out by `memOK`, R63). Log 7. -/
  memMap : List Region
  deriving DecidableEq, Repr

/-- `UNIT_BASE` (R7, 10_state.md R21). -/
def Params.unitBase (p : Params) : Nat := 256 * p.unitPage.toNat

/-- `IMG_W*IMG_H*3`, the length of every CM.WB run (44_dispatch_control.md R195). -/
def Params.frameBytes (p : Params) : Nat := p.imgW.toNat * p.imgH.toNat * 3

/-- Free value: bytes the spec leaves unspecified, the `slot`-th of draw `n` (60_exceptions.md R219; 20_memory.md
R74; 70_reset_and_hazards.md R241; 10_state.md R46). Logs 9, 11, 13, 14, 15, 20. -/
opaque Config.freeByte : Nat → Nat → Byte

/-- Free value: 32-bit registers the spec leaves unspecified (10_state.md R46; 43_vector_mac_lane.md R168).
Logs 11, 12, 20. -/
opaque Config.freeWord : Nat → Nat → Word

/-- Free value: which of several failing accesses ERR_ADDR records (60_exceptions.md R220). Log 10. -/
opaque Config.freeIndex : Nat → Nat

/-- Free value: how `VFN` differs from `CM` at an input and an output row: 0 one below, 1 equal, 2 one above
(43_vector_mac_lane.md R168). Log 8. -/
opaque Config.vfnChoice : Byte → Byte → Byte → Fin 3 → Fin 3

end Sys2Proof
end

