-- ==== Sys2Proof/Syntax.lean ====
section
/-! DEFINITION. The instructions: the legal command words of 30_encoding.md R86, one constructor for each row of
spec/opcode_table.json. No command carries an operand (R91). -/

namespace Sys2Proof

/-- A command of the unit (30_encoding.md R83, R86). -/
inductive Instr where
  /-- CM.NOP (44_dispatch_control.md R191). -/
  | nop
  /-- CM.SCALAR (42_scalar_corrector.md R140). -/
  | scalar
  /-- CM.BULK (43_vector_mac_lane.md R169). -/
  | bulk
  /-- CM.BULK.PF: CM.BULK with the prefetch hint (R169, R84). -/
  | bulkPf
  /-- CM.WB (44_dispatch_control.md R193). -/
  | wb
  /-- CM.WB.PF: CM.WB with the prefetch hint (R193, R84). -/
  | wbPf
  /-- CM.CLEAR (44_dispatch_control.md R192). -/
  | clear
  deriving DecidableEq, Repr

end Sys2Proof
end

