-- ==== Sys2Proof/WellFormed.lean ====
section
/-! DEFINITION. What a legal command word is, field by field (30_encoding.md R82 to R88), and what a legal
configuration is (00_scope.md R7). -/

namespace Sys2Proof

/-- The fields of a command word (30_encoding.md R82). -/
structure CommandFields where
  op  : BitVec 4
  pf  : BitVec 1
  rsv : BitVec 27
  deriving DecidableEq, Repr

/-- RSV is 0 (R85). -/
def CommandFields.reservedZero (f : CommandFields) : Bool := f.rsv == 0

/-- OP is one of the five defined operations (R83). -/
def CommandFields.operationDefined (f : CommandFields) : Bool := decide (f.op.toNat ≤ 4)

/-- PF is legal only with BULK and WB (R84). -/
def CommandFields.prefetchAllowed (f : CommandFields) : Bool :=
  f.pf == 0 || f.op == 2 || f.op == 3

/-- The word is one of the legal command words (R86, R88). -/
def CommandFields.wellFormed (f : CommandFields) : Bool :=
  f.reservedZero && f.operationDefined && f.prefetchAllowed

/-- The configuration is one the spec allows: `IMG_W` and `IMG_H` at least 1 and `IMG_W*IMG_H*3 < 2^32`
(00_scope.md R7, 44_dispatch_control.md R195). The other conditions of R7 hold by the types of the fields. -/
def Params.wellFormed (p : Params) : Bool :=
  decide (1 ≤ p.imgW.toNat) && decide (1 ≤ p.imgH.toNat) && decide (p.frameBytes < addressLimit)

end Sys2Proof
end

