-- ==== Sys2Proof/Decode.lean ====
section
/-! DEFINITION. Decoding of command words, total on every 32-bit word and rejecting by name (30_encoding.md R87,
R88), and the encoder written from the table of R86. -/

namespace Sys2Proof

/-- Why a command word is illegal (R88). -/
inductive IllegalWord where
  /-- A bit of RSV [31:5] is set (R85). -/
  | reservedBits
  /-- OP is one of 0x5..0xF (R83). -/
  | reservedOperation
  /-- PF = 1 with OP 0x0, 0x1 or 0x4 (R84). -/
  | prefetchNotAllowed
  deriving DecidableEq, Repr

/-- The answer of the decoder (R87). -/
inductive Decoded where
  | command (i : Instr)
  | illegal (why : IllegalWord)
  deriving DecidableEq, Repr

/-- The command, where there is one. -/
def Decoded.instr? : Decoded → Option Instr
  | .command i => some i
  | .illegal _ => none

/-- The fields of a word (R82). -/
def fieldsOf (w : Word) : CommandFields :=
  { op := w.extractLsb' 0 4, pf := w.extractLsb' 4 1, rsv := w.extractLsb' 5 27 }

/-- The word that holds the fields: `{RSV, PF, OP}` (R82). -/
def CommandFields.word (f : CommandFields) : Word := f.rsv ++ f.pf ++ f.op

/-- The decode function on the fields, in the order R87 writes its cases. -/
def CommandFields.decode (f : CommandFields) : Decoded :=
  if f.rsv ≠ 0 then .illegal .reservedBits
  else if f.op = 0x0 ∧ f.pf = 0 then .command .nop
  else if f.op = 0x1 ∧ f.pf = 0 then .command .scalar
  else if f.op = 0x2 then .command (if f.pf = 1 then .bulkPf else .bulk)
  else if f.op = 0x3 then .command (if f.pf = 1 then .wbPf else .wb)
  else if f.op = 0x4 ∧ f.pf = 0 then .command .clear
  else if 0x4 < f.op then .illegal .reservedOperation
  else .illegal .prefetchNotAllowed

/-- `decode` of R87, total on every word. -/
def decode (w : Word) : Decoded := (fieldsOf w).decode

/-- A 32-bit value from its four bytes, least significant byte first (20_memory.md R66). -/
def wordOfBytes (b0 b1 b2 b3 : Byte) : Word := b3 ++ b2 ++ b1 ++ b0

/-- The decoder on bytes as the bus carries them: the first four bytes are the command word and the rest
follows it; fewer bytes are no command (30_encoding.md R90: every command is one 32-bit word). -/
def decodeBytes : List Byte → Option (Decoded × List Byte)
  | b0 :: b1 :: b2 :: b3 :: rest => some (decode (wordOfBytes b0 b1 b2 b3), rest)
  | _ => none

/-- The fields of each command (R83, R84, R86). -/
def Instr.fields : Instr → CommandFields
  | .nop    => { op := 0x0, pf := 0, rsv := 0 }
  | .scalar => { op := 0x1, pf := 0, rsv := 0 }
  | .bulk   => { op := 0x2, pf := 0, rsv := 0 }
  | .bulkPf => { op := 0x2, pf := 1, rsv := 0 }
  | .wb     => { op := 0x3, pf := 0, rsv := 0 }
  | .wbPf   => { op := 0x3, pf := 1, rsv := 0 }
  | .clear  => { op := 0x4, pf := 0, rsv := 0 }

/-- The checks of `CommandFields` on a command. -/
def Instr.wellFormed (i : Instr) : Bool := i.fields.wellFormed

/-- The command word of a command (R86). -/
def encode (i : Instr) : Word := i.fields.word

/-- The `k`-th byte of `w`, as the bus carries it (20_memory.md R66). -/
def byteOfNat (w k : Nat) : Byte := BitVec.ofNat 8 (w / 256 ^ k)

/-- The instruction the decoder reads from a table word `w` of `nbits` bits: the bits above `nbits` are 0, the
word is laid out as four bytes, least significant first, and given to the decoder. A command is one 32-bit word
(R90), so a longer word is none. -/
def decodeTableWord (nbits w : Nat) : Option Instr :=
  if 32 < nbits then none
  else
    let v := w % 2 ^ nbits
    match decodeBytes [byteOfNat v 0, byteOfNat v 1, byteOfNat v 2, byteOfNat v 3] with
    | some (d, _) => d.instr?
    | none => none

end Sys2Proof
end

