-- ==== Sys2Proof/Machine/Platform.lean ====
section
/-! DEFINITION. The parameter values `State.reset` stands on. The spec's defaults are R7's (00_scope.md); the OPEN
parameters have no value in the spec, and those below are the model's (log 2). No statement rests on them. -/

namespace Sys2Proof.Machine

/-- DESIGN CHOICE (log 2): the example platform of 95_test_vectors.md. `VEC_PRESENT`, `LANE_MODE` and `OUT_MAP` are
the defaults of R7; `MemOK` is the example range of 95_test_vectors.md; `IMG_W` x `IMG_H` is the 8 x 1 of its vector R-1;
`UNIT_BASE` is 0x40000000, a multiple of 256 outside that range. -/
def platform : Params :=
  { unitPage := 0x400000
    imgW := 8
    imgH := 1
    vecPresent := true
    laneMode := .exact
    outMap := .to012
    memMap := [{ base := 0x20000000, size := 0x10000 }] }

end Sys2Proof.Machine
end

