-- ==== Sys2Proof/Machine/State.lean ====
section
/-! DEFINITION. The state of the machine as plain data: the unit's registers and sequencer (10_state.md R20 to
R51), the data space it acts on (20_memory.md R60), the parameters it was built with (00_scope.md R7), and what the
outside will do next. -/

namespace Sys2Proof.Machine

/-- The data space: address and byte, in the canonical form `Memory.wf` of Machine/Ops.lean. -/
abbrev Memory := List Host.Cell

/-- `SEQ.mode` (10_state.md R40). -/
inductive RunMode where
  | idle | scalar | bulk
  deriving DecidableEq, Repr

/-- The two paths a run can take (40_color_matrix.md to 44_dispatch_control.md). -/
inductive Path where
  | scalar | bulk
  deriving DecidableEq, Repr

/-- The error conditions of 60_exceptions.md R211. Codes 5..15 are never produced (10_state.md R31), so there is no
constructor for them. -/
inductive ErrorCode where
  | invalidLength | invalidBuffer | illegalCommand | busError
  deriving DecidableEq, Repr

/-- The fields of STATUS (10_state.md R28); its reserved bits have no storage (R36). Log 24. -/
structure Status where
  busy : Bool
  done : Bool
  err  : Option ErrorCode
  deriving DecidableEq, Repr

/-- The sequencer record `SEQ` (10_state.md R40). -/
structure Sequencer where
  mode : RunMode
  src  : Word
  dst  : Word
  len  : Word
  pf   : Bool
  idx  : Word
  deriving DecidableEq, Repr

/-- The register files of the vector_mac_lane array: `S`, `ACC` and `D`, indexed by row and then lane (10_state.md
R42, R43, R44). -/
structure LaneFiles where
  sample : Vector (Vector Byte 8) 3
  acc    : Vector (Vector Word 8) 3
  narrow : Vector (Vector Byte 8) 3
  deriving DecidableEq, Repr

/-- The scalar datapath registers `P_S`, `P_ACC`, `P_D` (10_state.md R45). -/
structure PixelRegs where
  sample : Vector Byte 3
  acc    : Vector Word 3
  out    : Vector Byte 3
  deriving DecidableEq, Repr

/-- One entry of the launch-level error record (60_exceptions.md R232): the code and the ERR_ADDR recorded with it. -/
structure ErrorReport where
  code : ErrorCode
  addr : Word
  deriving DecidableEq, Repr

/-- The width of a host access to the register block; only `word` is inside the contract (30_encoding.md R80). -/
inductive Width where
  | byte | half | word
  deriving DecidableEq, Repr

/-- What can happen next, seen from outside the unit (30_encoding.md R93; 20_memory.md R74; 70_reset_and_hazards.md R240). -/
inductive Event where
  /-- A host read of the register block at `UNIT_BASE + off` (`RD32`). -/
  | regRead (off : Byte) (width : Width)
  /-- A host write of the register block at `UNIT_BASE + off` (`WR32`; a command when `off` is CMD's). -/
  | regWrite (off : Byte) (width : Width) (value : Word)
  /-- `POLL`: reads until `(t & mask) == value` (R93). -/
  | poll (off : Byte) (mask value : Word)
  /-- A host read of a byte of the data space. -/
  | dataRead (addr : Word)
  /-- A host write of a byte of the data space. -/
  | dataWrite (addr : Word) (value : Byte)
  /-- The unit's turn: it takes its pending pixel or group step, if it has one. -/
  | unitTurn
  /-- Reset. -/
  | reset
  deriving DecidableEq, Repr

/-- The state. INVENTORY.md lists each field with its rule and its reset value. -/
structure State where
  /-- The parameters (R7, R20): configuration, changed by no step. Log 1. -/
  cfg : Params
  /-- SRC (R24). -/
  src : Word
  /-- DST (R25). -/
  dst : Word
  /-- LEN (R26). -/
  len : Word
  /-- STATUS (R28). -/
  status : Status
  /-- PROGRESS (R32). -/
  progress : Word
  /-- ERR_ADDR (R33). -/
  errAddr : Word
  /-- SEQ (R40). -/
  seq : Sequencer
  /-- S, ACC, D (R42 to R44). -/
  lanes : LaneFiles
  /-- P_S, P_ACC, P_D (R45). -/
  pixel : PixelRegs
  /-- The data space (20_memory.md R60). -/
  mem : Memory
  /-- Every error any command raised, oldest first (60_exceptions.md R232). -/
  errorRecord : List ErrorReport
  /-- The model's own: what happens next, in order. Log 5. -/
  pending : List Event
  /-- The model's own: the value the last host read returned. Log 16. -/
  busData : Word
  /-- The model's own: a host write raced with the current run (20_memory.md R74). Log 14. -/
  raced : Bool
  /-- The model's own: how many draws of free values have been made. Log 20. -/
  draws : Nat
  deriving DecidableEq, Repr

/-- The machine has no fault: every error the spec describes is recorded in STATUS and is a next state (60_exceptions.md
R210), so this type has no constructor. Log 26. -/
inductive Fault
  deriving DecidableEq, Repr

/-- The reasons a step has no meaning. -/
inductive Refusal where
  /-- Raised by an arm of `exec` whose instruction has no meaning yet. Safe: nothing is claimed of it. No arm raises it. -/
  | notModelled (mnemonic : String)
  /-- Raised by a host access to the register block that is not an aligned 32-bit access (30_encoding.md R80: "A model
  refuses such an access"; 93_implementation_defined.md I15). Safe: nothing is claimed after it. Log 18. -/
  | hostAccessOutsideContract
  deriving DecidableEq, Repr

/-- Working registers of the lanes at reset. DESIGN CHOICE (log 11): the spec gives none (R50, "unspecified"). -/
def LaneFiles.zero : LaneFiles :=
  { sample := .replicate 3 (.replicate 8 0)
    acc    := .replicate 3 (.replicate 8 0)
    narrow := .replicate 3 (.replicate 8 0) }

/-- Working registers of the scalar datapath at reset. DESIGN CHOICE (log 11). -/
def PixelRegs.zero : PixelRegs :=
  { sample := .replicate 3 0, acc := .replicate 3 0, out := .replicate 3 0 }

/-- `SEQ` at reset (10_state.md R50). -/
def Sequencer.zero : Sequencer :=
  { mode := .idle, src := 0, dst := 0, len := 0, pf := false, idx := 0 }

/-- The machine right after reset, for any parameters (10_state.md R50, 70_reset_and_hazards.md R240). -/
def State.resetWith (p : Params) : State :=
  { cfg := p
    src := 0
    dst := 0
    len := 0
    status := { busy := false, done := false, err := none }
    progress := 0
    errAddr := 0
    seq := .zero
    lanes := .zero
    pixel := .zero
    mem := []
    errorRecord := []
    pending := []
    busData := 0
    raced := false
    draws := 0 }

/-- The machine right after reset, on the platform of Machine/Platform.lean (log 2). -/
def State.reset : State := State.resetWith platform

end Sys2Proof.Machine
end

