-- ==== Sys2Proof/Machine/Flags.lean ====
section
/-! DEFINITION. The STATUS register: its word as the host reads it and the values the rules write to it
(10_state.md R28 to R31). These are the only status bits of the unit (R48). -/

namespace Sys2Proof.Machine

/-- The code of an error in STATUS.ERR (10_state.md R31, 60_exceptions.md R211). -/
def ErrorCode.code : ErrorCode → BitVec 4
  | .invalidLength  => 1
  | .invalidBuffer  => 2
  | .illegalCommand => 3
  | .busError       => 4

/-- The field ERR: 0 when nothing is reported (R31). -/
def Status.errField (s : Status) : BitVec 4 :=
  match s.err with
  | none => 0
  | some e => e.code

/-- One bit. -/
def bit (b : Bool) : BitVec 1 := if b then 1 else 0

/-- STATUS as it is read: ERR in [7:4], DONE in [1], BUSY in [0], the rest 0 (R28, R36). -/
def Status.word (s : Status) : Word :=
  (0 : BitVec 24) ++ s.errField ++ (0 : BitVec 2) ++ bit s.done ++ bit s.busy

/-- `{BUSY=0, DONE=0, ERR=0}`: idle, nothing to report (R28). -/
def Status.cleared : Status := { busy := false, done := false, err := none }

/-- `{BUSY=1, DONE=0, ERR=0}`: a run was accepted (R29). -/
def Status.running : Status := { busy := true, done := false, err := none }

/-- `{BUSY=0, DONE=1, ERR=0}`: a run completed (R30). -/
def Status.completed : Status := { busy := false, done := true, err := none }

/-- `{BUSY=0, DONE=0, ERR=code}`: a command failed (R31, 60_exceptions.md R216). -/
def Status.failed (e : ErrorCode) : Status := { busy := false, done := false, err := some e }

end Sys2Proof.Machine
end

