-- ==== Sys2Proof/Machine/Ops.lean ====
section
/-! DEFINITION. The named operations over the data space and the unit's state: memory, `MemOK`, the free values, taking
an error (`fail`, 60_exceptions.md R216) and its return (CM.CLEAR), accepting, advancing and completing a run. -/

namespace Sys2Proof.Machine

/-! ### The data space (20_memory.md R60, R61) -/

/-- What an unlisted byte of the data space reads as. DESIGN CHOICE (log 4): the spec gives no contents. -/
def Memory.unlisted : Byte := 0

/-- The byte at address `a`. -/
def Memory.read : Memory → Nat → Byte
  | [], _ => Memory.unlisted
  | (b, v) :: rest, a => if a = b then v else Memory.read rest a

/-- The entry for `a` in front of `rest`, left out when it says what an unlisted address reads as. -/
def Memory.cell (a : Nat) (v : Byte) (rest : Memory) : Memory :=
  if v = Memory.unlisted then rest else (a, v) :: rest

/-- Put byte `v` at address `a`, keeping the list in order of address. -/
def Memory.put : Memory → Nat → Byte → Memory
  | [], a, v => Memory.cell a v []
  | (b, x) :: rest, a, v =>
    if a < b then Memory.cell a v ((b, x) :: rest)
    else if a = b then Memory.cell a v rest
    else (b, x) :: Memory.put rest a v

/-- Write byte `v` at address `a`; there is no address past `2^32 - 1` (R61). -/
def Memory.write (m : Memory) (a : Nat) (v : Byte) : Memory :=
  if a < addressLimit then m.put a v else m

/-- Write a list of address and byte pairs, in order. -/
def Memory.writeAll : Memory → List (Nat × Byte) → Memory
  | m, [] => m
  | m, (a, v) :: rest => Memory.writeAll (m.write a v) rest

/-- The canonical form from address `lo` up: addresses strictly rising and below `2^32`, no entry equal to what an
unlisted address reads as. -/
def Memory.wfFrom : Nat → Memory → Bool
  | _, [] => true
  | lo, (a, v) :: rest =>
    decide (lo ≤ a) && decide (a < addressLimit) && (v != Memory.unlisted) && Memory.wfFrom (a + 1) rest

/-- The canonical form of a memory. -/
def Memory.wf (m : Memory) : Bool := Memory.wfFrom 0 m

/-- The `n` addresses from `base` up. -/
def byteRange (base n : Nat) : List Nat := (List.range n).map (base + ·)

/-- `a` lies in the register window `UNIT_BASE .. UNIT_BASE+0xFF` (10_state.md R21). -/
def inWindow (p : Params) (a : Nat) : Bool :=
  decide (p.unitBase ≤ a) && decide (a < p.unitBase + 256)

/-- `MemOK(a)`: the address responds to the bus master and is not in the register window (20_memory.md R63; log 7). -/
def memOK (p : Params) (a : Nat) : Bool :=
  decide (a < addressLimit) && !inWindow p a &&
    p.memMap.any fun r => decide (r.base ≤ a) && decide (a < r.base + r.size)

/-- The addresses of a phase whose access fails (60_exceptions.md R215). -/
def failing (p : Params) (addrs : List Nat) : List Nat := addrs.filter fun a => !memOK p a

/-! ### Free values (log 20) -/

/-- A value for each lane `l` in 0..7 (43_vector_mac_lane.md R160). -/
def perLane {α : Type} (f : Fin 8 → α) : Vector α 8 := Vector.ofFn f

/-- A value for each row or channel position in 0..2 (00_scope.md R14). -/
def perRow {α : Type} (f : Fin 3 → α) : Vector α 3 := Vector.ofFn f

/-- Lane files of which nothing is known (10_state.md R46; log 11). -/
def freeLanes (draw : Nat) : LaneFiles :=
  { sample := perRow fun c => perLane fun l => Config.freeByte draw (8 * c + l)
    acc    := perRow fun k => perLane fun l => Config.freeWord draw (8 * k + l)
    narrow := perRow fun k => perLane fun l => Config.freeByte draw (24 + 8 * k + l) }

/-- Scalar datapath registers of which nothing is known (10_state.md R46; log 11). -/
def freePixel (draw : Nat) : PixelRegs :=
  { sample := perRow fun j => Config.freeByte draw (48 + j)
    acc    := perRow fun k => Config.freeWord draw (24 + k)
    out    := perRow fun k => Config.freeByte draw (51 + k) }

/-- The working registers hold nothing known between runs and after an error (10_state.md R46; log 11). -/
def forgetWorking (s : State) : State :=
  { s with lanes := freeLanes s.draws, pixel := freePixel s.draws, draws := s.draws + 1 }

/-- Free bytes for the `n` addresses from `base` up (60_exceptions.md R219; logs 9, 14, 15). -/
def freeBytes (draw base : Nat) : Nat → List (Nat × Byte)
  | 0 => []
  | n + 1 => freeBytes draw base n ++ [(base + n, Config.freeByte draw n)]

/-- Make the `n` bytes from `base` up unspecified. -/
def unspecify (base n : Nat) (s : State) : State :=
  { s with mem := s.mem.writeAll (freeBytes s.draws base n), draws := s.draws + 1 }

/-- One of the failing addresses (60_exceptions.md R220: "a model draws one of them"; log 10). -/
def drawAddress (draw : Nat) : List Nat → Nat
  | [] => 0
  | [a] => a
  | a :: b :: rest =>
    ((a :: b :: rest)[Config.freeIndex draw % (rest.length + 2)]'(by
      simpa using Nat.mod_lt _ (Nat.succ_pos _)))

/-! ### Taking an error, and its return -/

/-- `fail(code, addr)` of 60_exceptions.md R216: STATUS, ERR_ADDR, SEQ.mode, PROGRESS; the error is added to the
launch-level record (R232) and the working registers are unspecified after it (10_state.md R46). -/
def fail (code : ErrorCode) (addr : Word) (s : State) : State :=
  forgetWorking
    { s with
      status := .failed code
      errAddr := addr
      seq := { s.seq with mode := .idle }
      progress := if code = .busError then s.progress else 0
      errorRecord := s.errorRecord ++ [{ code := code, addr := addr }] }

/-- `raise BusError(a)` for one of the failing addresses `addrs` of a phase (R215, R216, R220). -/
def busError (addrs : List Nat) (s : State) : State :=
  fail .busError (BitVec.ofNat 32 (drawAddress s.draws addrs)) s

/-- `clear()` of 44_dispatch_control.md R192: the report of the last command is cleared (60_exceptions.md R221). -/
def clearReport (s : State) : State :=
  { s with status := .cleared, progress := 0, errAddr := 0 }

/-! ### A run -/

/-- `SEQ.mode` of a path. -/
def Path.mode : Path → RunMode
  | .scalar => .scalar
  | .bulk => .bulk

/-- The granularity of a path in bytes (44_dispatch_control.md R190; 60_exceptions.md R213). -/
def Path.granularity : Path → Nat
  | .scalar => 3
  | .bulk => 24

/-- The last two lines of acceptance (44_dispatch_control.md R190): `SEQ` is latched, BUSY is set, PROGRESS and ERR_ADDR
are 0. No host write has raced with the new run yet (log 14). -/
def acceptRun (path : Path) (length : Nat) (pf : Bool) (s : State) : State :=
  { s with
    seq := { mode := path.mode, src := s.src, dst := s.dst, len := BitVec.ofNat 32 length, pf := pf, idx := 0 }
    status := .running
    progress := 0
    errAddr := 0
    raced := false }

/-- `complete()` of 42_scalar_corrector.md R144; the working registers are unspecified between runs (10_state.md R46). -/
def complete (s : State) : State :=
  forgetWorking { s with status := .completed, seq := { s.seq with mode := .idle } }

/-- The end of a pixel or group step of `n` bytes: `SEQ.idx`, PROGRESS, and completion when the run's length is reached
(42_scalar_corrector.md R143, 43_vector_mac_lane.md R170). -/
def advance (n : Nat) (s : State) : State :=
  let next := s.seq.idx.toNat + 1
  let t := { s with seq := { s.seq with idx := BitVec.ofNat 32 next }, progress := BitVec.ofNat 32 (n * next) }
  if n * next = s.seq.len.toNat then complete t else t

/-- The bytes a step writes: those the datapath gives, or, after a host write has raced with the run, bytes of which
nothing is known (20_memory.md R74; log 14). -/
def runBytes (s : State) (cells : List (Nat × Byte)) : List (Nat × Byte) :=
  if s.raced then cells.mapIdx fun j c => (c.1, Config.freeByte s.draws j) else cells

/-- Writes of a run to its destination (20_memory.md R62). -/
def storeRun (cells : List (Nat × Byte)) (s : State) : State :=
  { s with mem := s.mem.writeAll (runBytes s cells), draws := if s.raced then s.draws + 1 else s.draws }

end Sys2Proof.Machine
end

