-- ==== Sys2Proof/Machine/Operands.lean ====
section
/-! DEFINITION. The operands of the commands, which are register and parameter values at the moment of the CMD write
(30_encoding.md R91), their checks (44_dispatch_control.md R190), and the addresses a step forms (20_memory.md R65). -/

namespace Sys2Proof.Machine

/-- What a command asks for: its path, its length and its prefetch hint (R190). -/
structure RunRequest where
  path   : Path
  length : Nat
  pf     : Bool
  deriving DecidableEq, Repr

/-- InvalidLength: 0 or not a multiple of the path's granularity (60_exceptions.md R213). -/
def lengthInvalid (path : Path) (length : Nat) : Bool :=
  length == 0 || length % path.granularity != 0

/-- InvalidBuffer (a): a null address (60_exceptions.md R214). -/
def bufferNull (s d : Nat) : Bool := s == 0 || d == 0

/-- InvalidBuffer (b): a range passes `2^32` (R214). -/
def bufferWraps (s d length : Nat) : Bool :=
  decide (addressLimit < s + length) || decide (addressLimit < d + length)

/-- InvalidBuffer (c): the ranges intersect and are not the same (R214). -/
def bufferOverlaps (s d length : Nat) : Bool :=
  s != d && decide (s < d + length) && decide (d < s + length)

/-- The precondition checks in the order of 44_dispatch_control.md R190 and 60_exceptions.md R217. -/
def rejection (path : Path) (length s d : Nat) : Option ErrorCode :=
  if lengthInvalid path length then some .invalidLength
  else if bufferNull s d then some .invalidBuffer
  else if bufferWraps s d length then some .invalidBuffer
  else if bufferOverlaps s d length then some .invalidBuffer
  else none

/-- `wb_select(p)` of 44_dispatch_control.md R194, with the length of R195. -/
def wbSelect (p : Params) (pf : Bool) : RunRequest :=
  if p.vecPresent then { path := .bulk, length := p.frameBytes, pf := pf }
  else { path := .scalar, length := p.frameBytes, pf := false }

/-- Acceptance of a run after decoding (44_dispatch_control.md R190): the checks, then the run or the error. -/
def requestRun (r : RunRequest) (s : State) : State :=
  match rejection r.path r.length s.src.toNat s.dst.toNat with
  | some e => fail e 0 s
  | none => acceptRun r.path r.length r.pf s

/-- The first line of R190: a command written while BUSY = 1 is dropped (10_state.md R37, R198). -/
def whenIdle (f : State → State) (s : State) : Host.Outcome State Fault Refusal :=
  .next (if s.status.busy then s else f s)

/-- The address of the first source byte of the current step of `n` bytes. -/
def stepSrc (n : Nat) (s : State) : Nat := s.seq.src.toNat + n * s.seq.idx.toNat

/-- The address of the first destination byte of the current step of `n` bytes. -/
def stepDst (n : Nat) (s : State) : Nat := s.seq.dst.toNat + n * s.seq.idx.toNat

/-- `a` is a byte of the current run's source range. -/
def inSource (s : State) (a : Nat) : Bool :=
  decide (s.seq.src.toNat ≤ a) && decide (a < s.seq.src.toNat + s.seq.len.toNat)

/-- `a` is a byte of the current run's destination range. -/
def inDestination (s : State) (a : Nat) : Bool :=
  decide (s.seq.dst.toNat ≤ a) && decide (a < s.seq.dst.toNat + s.seq.len.toNat)

/-- `OUT_MAP(k)`: the destination position of output `d_k` (40_color_matrix.md R105). -/
def outPosition : OutMap → Fin 3 → Fin 3
  | .to012, k => k
  | .to021, k => #v[0, 2, 1][k]
  | .to102, k => #v[1, 0, 2][k]
  | .to120, k => #v[1, 2, 0][k]
  | .to201, k => #v[2, 0, 1][k]
  | .to210, k => #v[2, 1, 0][k]

end Sys2Proof.Machine
end

