-- ==== Sys2Proof/Machine/Matrix.lean ====
section
/-! DEFINITION. The colour matrix (40_color_matrix.md) and the saturating narrowing converter (41_saturating_narrow.md),
used by the scalar and the vector path alike, and the tolerant lane function (43_vector_mac_lane.md R168). -/

namespace Sys2Proof.Machine

/-- The coefficient ROM in milli-units, row `k`, column `j` (40_color_matrix.md R100). -/
def rom : Vector (Vector Int 3) 3 :=
  #v[#v[-636, -369, 2092],
     #v[162, 1315, -495],
     #v[3017, -664, -139]]

/-- `K[k][j]` (R100). -/
def coef (k j : Fin 3) : Int := rom[k][j]

/-- `ACCk(s0, s1, s2)`, computed exactly (40_color_matrix.md R103). -/
def rowAcc (k : Fin 3) (s0 s1 s2 : Byte) : Int :=
  coef k 0 * s0.toNat + coef k 1 * s1.toNat + coef k 2 * s2.toNat

/-- `SATN(a)` in the integer form of 41_saturating_narrow.md R121. Lean's `/` on Int with the positive divisor 1000 is
the floor division `fdiv` of 00_scope.md R10. -/
def satn (a : Int) : Byte := BitVec.ofNat 8 (min 255 (max 0 ((a + 500) / 1000))).toNat

/-- `CM(s0, s1, s2)[k]` (40_color_matrix.md R104). -/
def cm (s0 s1 s2 : Byte) (k : Fin 3) : Byte := satn (rowAcc k s0 s1 s2)

/-- `v` moved one down, left, or moved one up as `choice` says, and kept in [0,255]. -/
def nudge (choice : Fin 3) (v : Byte) : Byte :=
  BitVec.ofNat 8 (min 255 (v.toNat + choice.val - 1))

/-- `VFN(s0, s1, s2)[k]` of 43_vector_mac_lane.md R168: any function within 1 of `CM` that gives (0,0,0) at (0,0,0).
Every such function is this one for some `Config.vfnChoice` (log 8). -/
def vfn (s0 s1 s2 : Byte) (k : Fin 3) : Byte :=
  if s0 = 0 ∧ s1 = 0 ∧ s2 = 0 then 0
  else nudge (Config.vfnChoice s0 s1 s2 k) (cm s0 s1 s2 k)

/-- What a lane computes for row `k` of its pixel in a lane mode (R164, R168). -/
def laneOutput (m : LaneMode) (s0 s1 s2 : Byte) (k : Fin 3) : Byte :=
  match m with
  | .exact => cm s0 s1 s2 k
  | .tolerant => vfn s0 s1 s2 k

end Sys2Proof.Machine
end

