-- ==== Sys2Proof/Machine/Lanes.lean ====
section
/-! DEFINITION. The vector_mac_lane array: the micro-operations a group step is made of (43_vector_mac_lane.md section
1). They have no encoding (30_encoding.md R92). -/

namespace Sys2Proof.Machine

/-- The addresses U.GATHER(0..2) read in the current group step (R161). -/
def groupReads (s : State) : List Nat := byteRange (stepSrc 24 s) 24

/-- U.GATHER(c): channel position `c` of the eight pixels (R161). The bus check of the phase is in `groupStep`. -/
def uGather (c : Fin 3) (s : State) : State :=
  { s with lanes := { s.lanes with
      sample := s.lanes.sample.set c (perLane fun l => s.mem.read (stepSrc 24 s + 3 * l + c)) } }

/-- U.VMUL(k): `ACC[k][l] <- K[k][0] * zext_32(S[0][l])` (R162). -/
def uVmul (k : Fin 3) (s : State) : State :=
  { s with lanes := { s.lanes with
      acc := s.lanes.acc.set k (perLane fun l => BitVec.ofInt 32 (coef k 0 * (s.lanes.sample[0][l]).toNat)) } }

/-- U.VMAC(k, j): `ACC[k][l] <- ACC[k][l] + K[k][j] * zext_32(S[j][l])` (R163). -/
def uVmac (k j : Fin 3) (s : State) : State :=
  { s with lanes := { s.lanes with
      acc := s.lanes.acc.set k (perLane fun l =>
        BitVec.ofInt 32 ((s.lanes.acc[k][l]).toInt + coef k j * (s.lanes.sample[j][l]).toNat)) } }

/-- U.SATN(k) in `EXACT` mode (R164). -/
def uSatnExact (k : Fin 3) (s : State) : State :=
  { s with lanes := { s.lanes with
      narrow := s.lanes.narrow.set k (perLane fun l => satn (s.lanes.acc[k][l]).toInt) } }

/-- What replaces U.SATN(k) in `TOLERANT` mode (R168): `VFN` of the lane's samples; the contents of `ACC` are then
unspecified (log 12). -/
def uSatnTolerant (k : Fin 3) (s : State) : State :=
  { s with
    lanes := { s.lanes with
      narrow := s.lanes.narrow.set k (perLane fun l =>
        vfn s.lanes.sample[0][l] s.lanes.sample[1][l] s.lanes.sample[2][l] k)
      acc := s.lanes.acc.set k (perLane fun l => Config.freeWord s.draws l) }
    draws := s.draws + 1 }

/-- U.SATN(k) in the unit's lane mode (R164, R168). -/
def uSatn (k : Fin 3) (s : State) : State :=
  match s.cfg.laneMode with
  | .exact => uSatnExact k s
  | .tolerant => uSatnTolerant k s

/-- The row `k` of a group step: U.VMUL(k), U.VMAC(k,1), U.VMAC(k,2), U.SATN(k) (R167). -/
def uRow (k : Fin 3) (s : State) : State := uSatn k (uVmac k 2 (uVmac k 1 (uVmul k s)))

/-- The writes of U.SCATTER(k): lane `l`'s output at stride 3, at position `OUT_MAP(k)` (R165). -/
def scatterWrites (k : Fin 3) (s : State) : List (Nat × Byte) :=
  [0, 1, 2, 3, 4, 5, 6, 7].map fun l : Fin 8 =>
    (stepDst 24 s + 3 * l + outPosition s.cfg.outMap k, s.lanes.narrow[k][l])

/-- U.SCATTER(k) (R165). The bus check of the phase is in `groupStep`. -/
def uScatter (k : Fin 3) (s : State) : State := storeRun (scatterWrites k s) s

/-- The addresses U.SCATTER(0..2) write in the current group step (R165: "the 24 bytes `[bd, bd+24)` each exactly
once"). -/
def groupDestination (s : State) : List Nat := byteRange (stepDst 24 s) 24

/-- The source bytes U.PREFETCH may read in the current group step: the first address and the number of bytes (R166;
20_memory.md R78). -/
def prefetchRange (s : State) : Option (Nat × Nat) :=
  if s.seq.pf ∧ 24 * (s.seq.idx.toNat + 2) ≤ s.seq.len.toNat then
    some (s.seq.src.toNat + 24 * (s.seq.idx.toNat + 1), 24)
  else none

/-- `Prefetch(a, n)` is a hint with no architectural effect (00_scope.md R12). -/
def prefetchBytes (_addr _n : Nat) (s : State) : State := s

/-- U.PREFETCH (R166). -/
def uPrefetch (s : State) : State :=
  match prefetchRange s with
  | some (a, n) => prefetchBytes a n s
  | none => s

end Sys2Proof.Machine
end

