-- ==== Sys2Proof/Machine/Bulk.lean ====
section
/-! DEFINITION. The group step and CM.BULK, CM.BULK.PF (43_vector_mac_lane.md section 2). -/

namespace Sys2Proof.Machine

/-- The gathers and rows of a group step, in the order of R167. -/
def groupCompute (s : State) : State :=
  uRow 2 (uRow 1 (uRow 0 (uGather 2 (uGather 1 (uGather 0 (uPrefetch s))))))

/-- The scatters of a group step (R167). -/
def groupScatter (s : State) : State := uScatter 2 (uScatter 1 (uScatter 0 s))

/-- `group_step()` of R170. A failing gather leaves the group's destination bytes alone; a failing scatter leaves them
unspecified (60_exceptions.md R219). -/
def groupStep (s : State) : State :=
  match failing s.cfg (groupReads s) with
  | a :: more => busError (a :: more) s
  | [] =>
    let t := groupCompute s
    match failing s.cfg (groupDestination t) with
    | a :: more => busError (a :: more) (unspecify (stepDst 24 t) 24 t)
    | [] => advance 24 (groupScatter t)

/-- CM.BULK and CM.BULK.PF share their acceptance (44_dispatch_control.md R190): IllegalCommand without the vector array
(R197), else a run of the vector path over LEN bytes. -/
def requestBulk (pf : Bool) (s : State) : State :=
  if s.cfg.vecPresent then requestRun { path := .bulk, length := s.len.toNat, pf := pf } s
  else fail .illegalCommand 0 s

/-- CM.BULK (R169). -/
def execBulk (s : State) : Host.Outcome State Fault Refusal := whenIdle (requestBulk false) s

/-- CM.BULK.PF (R169): CM.BULK with the prefetch hint. -/
def execBulkPf (s : State) : Host.Outcome State Fault Refusal := whenIdle (requestBulk true) s

end Sys2Proof.Machine
end

