-- ==== Sys2Proof/Machine/Control.lean ====
section
/-! DEFINITION. The dispatcher commands CM.WB and CM.WB.PF, the control commands CM.NOP and CM.CLEAR
(44_dispatch_control.md), and what an illegal word does (60_exceptions.md R212). -/

namespace Sys2Proof.Machine

/-- CM.NOP (R191): no state changed. -/
def execNop (s : State) : Host.Outcome State Fault Refusal := whenIdle (fun s => s) s

/-- CM.CLEAR (R192): the report is cleared. -/
def execClear (s : State) : Host.Outcome State Fault Refusal := whenIdle clearReport s

/-- CM.WB (R193): a run over the frame on the path `wb_select` gives. -/
def execWb (s : State) : Host.Outcome State Fault Refusal :=
  whenIdle (fun s => requestRun (wbSelect s.cfg false) s) s

/-- CM.WB.PF (R193): CM.WB with the prefetch hint. -/
def execWbPf (s : State) : Host.Outcome State Fault Refusal :=
  whenIdle (fun s => requestRun (wbSelect s.cfg true) s) s

/-- A write to CMD of a word that is no command (30_encoding.md R88, 60_exceptions.md R212). -/
def illegalWord (s : State) : Host.Outcome State Fault Refusal := whenIdle (fail .illegalCommand 0) s

end Sys2Proof.Machine
end

