-- ==== Sys2Proof/Machine/Scalar.lean ====
section
/-! DEFINITION. The scalar corrector: the per-pixel datapath, the pixel step, and CM.SCALAR (42_scalar_corrector.md). -/

namespace Sys2Proof.Machine

/-- `P_ACC[k]` and `P_D[k]` from `P_S` (`Correct`, R142): the accumulator is an `s32`. -/
def correct (p : PixelRegs) : PixelRegs :=
  let acc := perRow fun k => BitVec.ofInt 32 (rowAcc k p.sample[0] p.sample[1] p.sample[2])
  { p with acc := acc, out := perRow fun k => satn acc[k].toInt }

/-- The read phase's addresses of a pixel step (R143). -/
def pixelReads (s : State) : List Nat := byteRange (stepSrc 3 s) 3

/-- The read phase of a pixel step: the three samples (R143; 40_color_matrix.md R102). -/
def loadPixel (s : State) : State :=
  { s with pixel := { s.pixel with sample := perRow fun j => s.mem.read (stepSrc 3 s + j) } }

/-- The write phase of a pixel step: `P_D[k]` goes to position `OUT_MAP(k)` (R143; 40_color_matrix.md R105). -/
def pixelWrites (s : State) : List (Nat × Byte) :=
  [0, 1, 2].map fun k : Fin 3 => (stepDst 3 s + outPosition s.cfg.outMap k, s.pixel.out[k])

/-- The read phase and the datapath of a pixel step (R143). -/
def pixelCompute (s : State) : State :=
  let t := loadPixel s
  { t with pixel := correct t.pixel }

/-- The addresses the write phase of a pixel step writes (R143). -/
def pixelDestination (s : State) : List Nat := byteRange (stepDst 3 s) 3

/-- `pixel_step()` of R143. A failing read leaves the step's destination bytes alone; a failing write leaves them
unspecified (60_exceptions.md R219). -/
def pixelStep (s : State) : State :=
  match failing s.cfg (pixelReads s) with
  | a :: more => busError (a :: more) s
  | [] =>
    let t := pixelCompute s
    match failing s.cfg (pixelDestination t) with
    | a :: more => busError (a :: more) (unspecify (stepDst 3 t) 3 t)
    | [] => advance 3 (storeRun (pixelWrites t) t)

/-- CM.SCALAR (R140): a run of the scalar path over LEN bytes. -/
def execScalar (s : State) : Host.Outcome State Fault Refusal :=
  whenIdle (fun s => requestRun { path := .scalar, length := s.len.toNat, pf := false } s) s

end Sys2Proof.Machine
end

