-- ==== Sys2Proof/Machine/Dispatch.lean ====
section
/-! DEFINITION. The meaning of each command, arm by arm. -/

namespace Sys2Proof.Machine

def exec (i : Instr) (s : State) : Host.Outcome State Fault Refusal :=
  match i with
  | .nop => Sys2Proof.Machine.execNop s
  | .scalar => Sys2Proof.Machine.execScalar s
  | .bulk => Sys2Proof.Machine.execBulk s
  | .bulkPf => Sys2Proof.Machine.execBulkPf s
  | .wb => Sys2Proof.Machine.execWb s
  | .wbPf => Sys2Proof.Machine.execWbPf s
  | .clear => Sys2Proof.Machine.execClear s

end Sys2Proof.Machine
end

