-- ==== Sys2Proof/Machine/Registers.lean ====
section
/-! DEFINITION. The register block as the host sees it: the map of 10_state.md R21, what each register reads as, and what
a write to a register other than CMD does. -/

namespace Sys2Proof.Machine

/-- A register of the block (10_state.md R21). -/
inductive Reg where
  | id | cap | src | dst | len | cmd | status | progress | errAddr | imgDim
  | coef (n : Fin 9)
  | reserved
  deriving DecidableEq, Repr

/-- The register at a word offset (R21); none where the offset is not a multiple of 4 (30_encoding.md R80). -/
def regAt (off : Byte) : Option Reg :=
  if off.toNat % 4 ≠ 0 then none
  else
    some <| match off.toNat / 4 with
      | 0 => .id
      | 1 => .cap
      | 2 => .src
      | 3 => .dst
      | 4 => .len
      | 5 => .cmd
      | 6 => .status
      | 7 => .progress
      | 8 => .errAddr
      | 9 => .imgDim
      | 16 => .coef 0
      | 17 => .coef 1
      | 18 => .coef 2
      | 19 => .coef 3
      | 20 => .coef 4
      | 21 => .coef 5
      | 22 => .coef 6
      | 23 => .coef 7
      | 24 => .coef 8
      | _ => .reserved

/-- The register a host access of a width at an offset reaches: only aligned 32-bit accesses do (30_encoding.md R80). -/
def accessedReg (off : Byte) (width : Width) : Option Reg :=
  match width with
  | .word => regAt off
  | .half => none
  | .byte => none

/-- ID (R22). -/
def idWord : Word := 0x434D3301

/-- CAP: BPP [23:16], LANES [15:8], TOL [1], VEC [0] (R23). -/
def capWord (p : Params) : Word :=
  (0 : BitVec 8) ++ (3 : BitVec 8) ++ (8 : BitVec 8) ++ (0 : BitVec 6) ++
    bit (p.laneMode == .tolerant) ++ bit p.vecPresent

/-- IMGDIM: IMG_H [31:16], IMG_W [15:0] (R34). -/
def imgDimWord (p : Params) : Word := p.imgH ++ p.imgW

/-- COEF`n`, `n = 3k+j`: the coefficient `K[k][j]` as an `s32` (R35). -/
def coefWord (n : Fin 9) : Word :=
  BitVec.ofInt 32 (coef ⟨n.val / 3, by omega⟩ ⟨n.val % 3, by omega⟩)

/-- What a register reads as (R22 to R36); no read has a side effect (R38). -/
def readReg (r : Reg) (s : State) : Word :=
  match r with
  | .id => idWord
  | .cap => capWord s.cfg
  | .src => s.src
  | .dst => s.dst
  | .len => s.len
  | .cmd => 0
  | .status => s.status.word
  | .progress => s.progress
  | .errAddr => s.errAddr
  | .imgDim => imgDimWord s.cfg
  | .coef n => coefWord n
  | .reserved => 0

/-- A write to a register other than CMD: SRC, DST and LEN take the value while BUSY = 0 (R24 to R26, R37); every other
register ignores it (R36, R38). CMD is written through `cmdWrite` of Machine/HostAccess.lean; it holds no value (R27). -/
def writeReg (r : Reg) (v : Word) (s : State) : State :=
  match r with
  | .src => if s.status.busy then s else { s with src := v }
  | .dst => if s.status.busy then s else { s with dst := v }
  | .len => if s.status.busy then s else { s with len := v }
  | .id | .cap | .cmd | .status | .progress | .errAddr | .imgDim | .coef _ | .reserved => s

end Sys2Proof.Machine
end

