-- ==== Sys2Proof/Machine/HostAccess.lean ====
section
/-! DEFINITION. What each event does: host accesses to the register block (30_encoding.md), command writes
(44_dispatch_control.md R190), host accesses to the data space (20_memory.md R73, R74), the unit's turn, and reset
(70_reset_and_hazards.md). The host's notation for programs (30_encoding.md R93 to R95) is at the end. -/

namespace Sys2Proof.Machine

/-- The unit's turn: a pixel step or a group step while a run is in progress, and nothing while idle (00_scope.md R15;
70_reset_and_hazards.md R240: "it does nothing until a host writes CMD"). -/
def unitStep (s : State) : State :=
  match s.seq.mode with
  | .idle => s
  | .scalar => pixelStep s
  | .bulk => groupStep s

/-- `on_cmd_write(w)` of 44_dispatch_control.md R190. -/
def cmdWrite (w : Word) (s : State) : Host.Outcome State Fault Refusal :=
  match decode w with
  | .command i => exec i s
  | .illegal _ => illegalWord s

/-- `RD32` (30_encoding.md R93). -/
def hostRegRead (off : Byte) (width : Width) (s : State) : Host.Outcome State Fault Refusal :=
  match accessedReg off width with
  | some r => .next { s with busData := readReg r s }
  | none => .refused .hostAccessOutsideContract

/-- `WR32` (30_encoding.md R93); a write to CMD is a command (10_state.md R27). -/
def hostRegWrite (off : Byte) (width : Width) (v : Word) (s : State) : Host.Outcome State Fault Refusal :=
  match accessedReg off width with
  | some .cmd => cmdWrite v s
  | some r => .next (writeReg r v s)
  | none => .refused .hostAccessOutsideContract

/-- `POLL NAME, mask, v` (30_encoding.md R93): one read; until it gives `(t & mask) == v` the poll stays, with a turn of
the unit between two reads (log 19). -/
def hostPoll (off : Byte) (mask v : Word) (s : State) : Host.Outcome State Fault Refusal :=
  match regAt off with
  | some r =>
    let t := readReg r s
    if t &&& mask = v then .next { s with busData := t }
    else .next { s with busData := t, pending := .unitTurn :: .poll off mask v :: s.pending }
  | none => .refused .hostAccessOutsideContract

/-- A host read of a data byte. A byte of the destination while BUSY = 1 reads as any value (20_memory.md R74; log 13).
The register window is not data: a byte access there is outside the contract (30_encoding.md R80). -/
def hostDataRead (a : Word) (s : State) : Host.Outcome State Fault Refusal :=
  if inWindow s.cfg a.toNat then .refused .hostAccessOutsideContract
  else if s.status.busy && inDestination s a.toNat then
    .next { s with busData := (Config.freeByte s.draws 0).setWidth 32, draws := s.draws + 1 }
  else .next { s with busData := (s.mem.read a.toNat).setWidth 32 }

/-- A host write of a data byte. While BUSY = 1, a write to a byte of the source or the destination makes every
destination byte of the run unspecified from then on (20_memory.md R74; log 14). -/
def hostDataWrite (a : Word) (v : Byte) (s : State) : Host.Outcome State Fault Refusal :=
  if inWindow s.cfg a.toNat then .refused .hostAccessOutsideContract
  else
    let t := { s with mem := s.mem.write a.toNat v }
    if s.status.busy && (inSource s a.toNat || inDestination s a.toNat) then
      .next { unspecify s.seq.dst.toNat s.seq.len.toNat t with raced := true }
    else .next t

/-- The number of bytes of the step in progress: none while idle. -/
def stepBytes (s : State) : Nat :=
  match s.seq.mode with
  | .idle => 0
  | .scalar => 3
  | .bulk => 24

/-- Reset (70_reset_and_hazards.md R240, R241; 10_state.md R50, R51): every piece of the unit's state takes its reset
value; the destination bytes of a step in progress are unspecified; the rest of the data space, the parameters, the
launch-level error record and what the outside does next stay (log 15, log 17). -/
def resetUnit (s : State) : State :=
  let n := stepBytes s
  let t := unspecify (stepDst n s) n s
  { State.resetWith s.cfg with
    mem := t.mem, errorRecord := s.errorRecord, pending := s.pending, busData := s.busData, draws := t.draws }

/-- What an event does. -/
def handle (e : Event) (s : State) : Host.Outcome State Fault Refusal :=
  match e with
  | .regRead off width => hostRegRead off width s
  | .regWrite off width v => hostRegWrite off width v s
  | .poll off mask v => hostPoll off mask v s
  | .dataRead a => hostDataRead a s
  | .dataWrite a v => hostDataWrite a v s
  | .unitTurn => .next (unitStep s)
  | .reset => .next (resetUnit s)

/-! ### The host's notation (30_encoding.md R93 to R95) -/

/-- `WR32 off, v`. -/
def wr32 (off : Byte) (v : Word) : Event := .regWrite off .word v

/-- `RD32 off`. -/
def rd32 (off : Byte) : Event := .regRead off .word

/-- A command: `WR32 CMD, w` with the word of R86. -/
def command (i : Instr) : Event := wr32 0x14 (encode i)

/-- `CM.WAIT` (R94). -/
def cmWait : List Event := [.poll 0x18 1 0]

/-- `CM.CORRECT s, d, n` (R94). -/
def cmCorrect (s d n : Word) : List Event :=
  [wr32 0x08 s, wr32 0x0C d, wr32 0x10 n, command .scalar] ++ cmWait

/-- `CM.PIXEL s, d` (R94). -/
def cmPixel (s d : Word) : List Event := cmCorrect s d 3

/-- `CM.CORRECTBULK s, d, n` (R94). -/
def cmCorrectBulk (s d n : Word) : List Event :=
  [wr32 0x08 s, wr32 0x0C d, wr32 0x10 n, command .bulk] ++ cmWait

/-- `CM.WHITEBALANCE s, d` (R94). -/
def cmWhiteBalance (s d : Word) : List Event :=
  [wr32 0x08 s, wr32 0x0C d, command .wb] ++ cmWait

end Sys2Proof.Machine
end

