-- ==== Sys2Proof/Machine/Step.lean ====
section
/-! DEFINITION. One step of the machine (00_scope.md R15): the next event of `pending`, or, when nothing is pending, the
unit's turn (log 5, log 6). -/

namespace Sys2Proof.Machine

/-- One step. -/
def step (s : State) : Host.Outcome State Fault Refusal :=
  match s.pending with
  | [] => .next (unitStep s)
  | e :: rest => handle e { s with pending := rest }

/-- `s` with the write to CMD of a table word as its next event: the unit fetches nothing, it takes a command from the
host's write to CMD (20_memory.md R76, 10_state.md R27; log 5). -/
def State.withFetchWord (s : State) (nbits w : Nat) : State :=
  { s with pending := .regWrite 0x14 .word (BitVec.ofNat 32 (w % 2 ^ nbits)) :: s.pending }

end Sys2Proof.Machine
end

