-- ==== Sys2Proof/Safety.lean ====
section
/-! DEFINITION. What a legal state of the machine is, in the words claims use: the legal combinations of STATUS, what
holds while a run is in progress, and the invariant every step keeps. -/

namespace Sys2Proof.Machine

/-- What acceptance established and every step keeps while a run of `path` is in progress (10_state.md R32, R40, R41;
44_dispatch_control.md R190; 20_memory.md R61). -/
structure RunInv (path : Path) (s : State) : Prop where
  mode : s.seq.mode = path.mode
  src : s.seq.src = s.src
  dst : s.seq.dst = s.dst
  srcNotNull : 0 < s.seq.src.toNat
  dstNotNull : 0 < s.seq.dst.toNat
  lengthPositive : 0 < s.seq.len.toNat
  lengthMultiple : s.seq.len.toNat % path.granularity = 0
  srcFits : s.seq.src.toNat + s.seq.len.toNat ≤ addressLimit
  dstFits : s.seq.dst.toNat + s.seq.len.toNat ≤ addressLimit
  noOverlap : s.seq.src = s.seq.dst ∨ s.seq.src.toNat + s.seq.len.toNat ≤ s.seq.dst.toNat ∨
    s.seq.dst.toNat + s.seq.len.toNat ≤ s.seq.src.toNat
  indexBound : path.granularity * s.seq.idx.toNat < s.seq.len.toNat
  progress : s.progress.toNat = path.granularity * s.seq.idx.toNat
  errAddr : s.errAddr = 0

/-- The state is idle with nothing to report (10_state.md R28, R32, R33). -/
structure IdleInv (s : State) : Prop where
  status : s.status = .cleared
  mode : s.seq.mode = .idle
  progress : s.progress = 0
  errAddr : s.errAddr = 0

/-- A run is in progress (R28, R40). -/
def BusyInv (s : State) : Prop := s.status = .running ∧ ∃ path, RunInv path s

/-- The last run completed (10_state.md R30, R32, R33; 42_scalar_corrector.md R144). -/
structure DoneInv (s : State) : Prop where
  status : s.status = .completed
  mode : s.seq.mode = .idle
  progress : s.progress = s.seq.len
  errAddr : s.errAddr = 0

/-- The last command failed: an error at acceptance leaves PROGRESS and ERR_ADDR 0, a BusError leaves an address that is
not `MemOK` and a PROGRESS short of the length (10_state.md R32, R33; 60_exceptions.md R216, R220). -/
structure FailedInv (e : ErrorCode) (s : State) : Prop where
  status : s.status = .failed e
  mode : s.seq.mode = .idle
  atAcceptance : e ≠ .busError → s.progress = 0 ∧ s.errAddr = 0
  duringRun : e = .busError →
    memOK s.cfg s.errAddr.toNat = false ∧ s.progress.toNat < s.seq.len.toNat

/-- The invariant: the memory is in canonical form and STATUS, SEQ, PROGRESS and ERR_ADDR are one of the legal
combinations of 10_state.md R28. -/
structure LegalState (s : State) : Prop where
  memory : s.mem.wf = true
  report : IdleInv s ∨ BusyInv s ∨ DoneInv s ∨ ∃ e, FailedInv e s

/-- The precondition checks of 60_exceptions.md R213 and R214 pass for a run of `n` bytes, in the words of those rules. -/
structure Acceptable (path : Path) (n : Nat) (s : State) : Prop where
  positive : 0 < n
  multiple : n % path.granularity = 0
  srcNotNull : s.src ≠ 0
  dstNotNull : s.dst ≠ 0
  srcFits : s.src.toNat + n ≤ 2 ^ 32
  dstFits : s.dst.toNat + n ≤ 2 ^ 32
  noPartialOverlap : s.src = s.dst ∨ s.src.toNat + n ≤ s.dst.toNat ∨ s.dst.toNat + n ≤ s.src.toNat

/-- The length a command runs over and the path it takes (44_dispatch_control.md R190, R194): none for the commands that
start no run. -/
def runOf (i : Instr) (s : State) : Option (Path × Nat) :=
  match i with
  | .nop => none
  | .clear => none
  | .scalar => some (.scalar, s.len.toNat)
  | .bulk => some (.bulk, s.len.toNat)
  | .bulkPf => some (.bulk, s.len.toNat)
  | .wb => some (if s.cfg.vecPresent then .bulk else .scalar, s.cfg.frameBytes)
  | .wbPf => some (if s.cfg.vecPresent then .bulk else .scalar, s.cfg.frameBytes)

/-- `t` is `s` after a command failed at acceptance with the error `e` (60_exceptions.md R216, R218): the report, the
sequencer idle, the error added to the launch-level record, nothing else changed but the working registers, which are
unspecified after an error (10_state.md R46), and the model's counter of draws. -/
structure RejectedWith (e : ErrorCode) (s t : State) : Prop where
  status : t.status = { busy := false, done := false, err := some e }
  errAddr : t.errAddr = 0
  progress : t.progress = 0
  seq : t.seq = { s.seq with mode := .idle }
  errorRecord : t.errorRecord = s.errorRecord ++ [{ code := e, addr := 0 }]
  cfg : t.cfg = s.cfg
  src : t.src = s.src
  dst : t.dst = s.dst
  len : t.len = s.len
  mem : t.mem = s.mem
  pending : t.pending = s.pending
  busData : t.busData = s.busData

/-- What one turn of the unit in a run never changes (42_scalar_corrector.md R143, 43_vector_mac_lane.md R170; 10_state.md
R24 to R26, R37): the parameters, SRC, DST, LEN, the operands latched in SEQ, what the host has pending and last read. -/
structure TurnFrame (s t : State) : Prop where
  cfg : t.cfg = s.cfg
  src : t.src = s.src
  dst : t.dst = s.dst
  len : t.len = s.len
  seqSrc : t.seq.src = s.seq.src
  seqDst : t.seq.dst = s.seq.dst
  seqLen : t.seq.len = s.seq.len
  seqPf : t.seq.pf = s.seq.pf
  pending : t.pending = s.pending
  busData : t.busData = s.busData
  raced : t.raced = s.raced

/-- `t` is `s` after a BusError of the current step whose access to `a` failed (60_exceptions.md R216, R220): STATUS, the
sequencer idle, ERR_ADDR, PROGRESS and SEQ.idx as the last completed step left them, the record. -/
structure BusErrorAt (a : Nat) (s t : State) : Prop where
  frame : TurnFrame s t
  status : t.status = { busy := false, done := false, err := some .busError }
  mode : t.seq.mode = .idle
  idx : t.seq.idx = s.seq.idx
  progress : t.progress = s.progress
  errAddr : t.errAddr.toNat = a
  errorRecord : t.errorRecord = s.errorRecord ++ [{ code := .busError, addr := t.errAddr }]

/-- Every byte of a run's source and destination is `MemOK`. -/
def RunMemOK (s : State) : Prop :=
  ∀ a, (inSource s a = true ∨ inDestination s a = true) → memOK s.cfg a = true

/-- The byte the datapath of a run gives for output `k` of the pixel at address `a` of a memory: the scalar path is exact
whatever the lane mode is (42_scalar_corrector.md R145), the vector path computes what its lane mode says
(43_vector_mac_lane.md R164, R168). -/
def pixelOutput (path : Path) (mode : LaneMode) (m : Memory) (a : Nat) (k : Fin 3) : Byte :=
  match path with
  | .scalar => cm (m.read a) (m.read (a + 1)) (m.read (a + 2)) k
  | .bulk => laneOutput mode (m.read a) (m.read (a + 1)) (m.read (a + 2)) k

end Sys2Proof.Machine
end

