-- ==== Sys2Proof/Certificates/Slice0/Obligations.lean ====
section
/-! DEFINITION. The statements for the provers. Each cites the rule of spec/ it formalises in its docstring and in
OBLIGATIONS.json. A free value (Config.freeByte, freeWord, freeIndex, vfnChoice) is opaque, so every statement holds for
every value of it. -/

open Sys2Proof Sys2Proof.Machine

/-! ### Encoding (30_encoding.md) -/

/-- R86 and L2.4 of 95_test_vectors.md: words written out from the table. -/
def Obligations.TableWordsDecode : Prop :=
  decode 0b00000000000000000000000000000000 = .command .nop ∧
  decode 0b00000000000000000000000000000001 = .command .scalar ∧
  decode 0b00000000000000000000000000000010 = .command .bulk ∧
  decode 0b00000000000000000000000000010010 = .command .bulkPf ∧
  decode 0b00000000000000000000000000000011 = .command .wb ∧
  decode 0b00000000000000000000000000010011 = .command .wbPf ∧
  decode 0b00000000000000000000000000000100 = .command .clear ∧
  decode 0x00000010 = .illegal .prefetchNotAllowed ∧
  decode 0x00000005 = .illegal .reservedOperation ∧
  decode 0x80000002 = .illegal .reservedBits

/-- R86, R87: a word decodes to a command exactly when it is that command's word, so decoding an encoded command gives it
back and no other word is legal. -/
def Obligations.DecodeIsInverseOfEncode : Prop :=
  ∀ (w : Word) (i : Instr), decode w = .command i ↔ w = encode i

/-- R88, second part: which words are illegal. -/
def Obligations.IllegalWordsAreExactlyThese : Prop :=
  ∀ w : Word, (∃ why, decode w = .illegal why) ↔
    (w.extractLsb' 5 27 ≠ 0 ∨ 5 ≤ (w.extractLsb' 0 4).toNat ∨
      (w.extractLsb' 4 1 = 1 ∧ (w.extractLsb' 0 4 = 0 ∨ w.extractLsb' 0 4 = 1 ∨ w.extractLsb' 0 4 = 4)))

/-- A step runs the decoded command: a pending write to CMD (offset 0x14) of a word that decodes to `i` is `exec i` on the
state from which that write has been taken (R190, 10_state.md R27; how a command reaches the unit is log 5's). -/
def Obligations.StepRunsTheDecodedCommand : Prop :=
  ∀ (s : State) (w : Word) (i : Instr) (rest : List Event),
    s.pending = .regWrite 0x14 .word w :: rest → decode w = .command i →
      step s = exec i { s with pending := rest }

/-- Log 5: `withFetchWord` makes the very next step run the command. -/
def Obligations.FetchWordRunsNext : Prop :=
  ∀ (s : State) (i : Instr), step (s.withFetchWord 32 (encode i).toNat) = exec i s

/-- A pending host access is the next step, on the state from which it has been taken: register reads and writes (R15,
R93), and reads and writes of a data byte. That the next access is the head of the list `pending` is the model's choice,
log 5, and that a byte access of the host to the data space is a step of its own is log 23's. -/
def Obligations.StepTakesTheNextHostAccess : Prop :=
  ∀ (s : State) (rest : List Event),
    (∀ off width, s.pending = .regRead off width :: rest → step s = hostRegRead off width { s with pending := rest }) ∧
    (∀ off width v, s.pending = .regWrite off width v :: rest →
      step s = hostRegWrite off width v { s with pending := rest }) ∧
    (∀ a, s.pending = .dataRead a :: rest → step s = hostDataRead a { s with pending := rest }) ∧
    (∀ a v, s.pending = .dataWrite a v :: rest → step s = hostDataWrite a v { s with pending := rest })

/-! ### The register block (10_state.md) -/

/-- R50: the value of every piece of state after reset, for any parameters; the working registers are unspecified there
and so not mentioned, and the data space is not state of the unit (R51). -/
def Obligations.ResetValues : Prop :=
  ∀ p : Params,
    let s := State.resetWith p
    readReg .id s = 0x434D3301 ∧
    readReg .cap s = capWord p ∧
    (p.vecPresent = true → p.laneMode = .exact → readReg .cap s = 0x00030801) ∧
    readReg .src s = 0 ∧ readReg .dst s = 0 ∧ readReg .len s = 0 ∧
    readReg .cmd s = 0 ∧ readReg .status s = 0 ∧ readReg .progress s = 0 ∧ readReg .errAddr s = 0 ∧
    readReg .imgDim s = p.imgH ++ p.imgW ∧
    (∀ n : Fin 9, readReg (.coef n) s =
      #v[0xFFFFFD84, 0xFFFFFE8F, 0x0000082C, 0x000000A2, 0x00000523, 0xFFFFFE11, 0x00000BC9, 0xFFFFFD68, 0xFFFFFF75][n]) ∧
    s.seq = { mode := .idle, src := 0, dst := 0, len := 0, pf := false, idx := 0 } ∧
    s.cfg = p

/-- R35: COEF0 to COEF8 at offsets 0x40 + 4n read as the ROM's values and ignore writes, in every state. -/
def Obligations.CoefficientRegisters : Prop :=
  ∀ (n : Fin 9) (off : Byte) (v : Word) (s : State), off.toNat = 0x40 + 4 * n.val →
    hostRegRead off .word s = .next { s with busData :=
      #v[0xFFFFFD84, 0xFFFFFE8F, 0x0000082C, 0x000000A2, 0x00000523, 0xFFFFFE11, 0x00000BC9, 0xFFFFFD68, 0xFFFFFF75][n] } ∧
    hostRegWrite off .word v s = .next s

/-- R22: ID reads as 0x434D3301, the ASCII characters "CM3" and the revision, and ignores writes. -/
def Obligations.IdRegister : Prop :=
  ∀ (v : Word) (s : State),
    hostRegRead 0x00 .word s = .next { s with busData := 0x434D3301 } ∧
    (0x434D3301 : Word) = (0x43 : Byte) ++ (0x4D : Byte) ++ (0x33 : Byte) ++ (0x01 : Byte) ∧
    hostRegWrite 0x00 .word v s = .next s

/-- R23: the fields of CAP, for all parameters, and its value at the defaults. -/
def Obligations.CapRegister : Prop :=
  ∀ (v : Word) (s : State),
    hostRegRead 0x04 .word s = .next { s with busData := capWord s.cfg } ∧
    (capWord s.cfg).extractLsb' 0 1 = (if s.cfg.vecPresent then 1 else 0) ∧
    (capWord s.cfg).extractLsb' 1 1 = (if s.cfg.laneMode = .tolerant then 1 else 0) ∧
    (capWord s.cfg).extractLsb' 2 6 = 0 ∧ (capWord s.cfg).extractLsb' 8 8 = 8 ∧
    (capWord s.cfg).extractLsb' 16 8 = 3 ∧ (capWord s.cfg).extractLsb' 24 8 = 0 ∧
    (s.cfg.vecPresent = true → s.cfg.laneMode = .exact → capWord s.cfg = 0x00030801) ∧
    hostRegWrite 0x04 .word v s = .next s

/-- R34: IMGDIM holds IMG_W in [15:0] and IMG_H in [31:16] and ignores writes. -/
def Obligations.ImageDimensionRegister : Prop :=
  ∀ (v : Word) (s : State),
    hostRegRead 0x24 .word s = .next { s with busData := imgDimWord s.cfg } ∧
    (imgDimWord s.cfg).extractLsb' 0 16 = s.cfg.imgW ∧ (imgDimWord s.cfg).extractLsb' 16 16 = s.cfg.imgH ∧
    hostRegWrite 0x24 .word v s = .next s

/-- R24 to R27, R32, R33: at every time, SRC, DST, LEN, PROGRESS and ERR_ADDR read as what they hold and CMD reads as 0;
while idle, a write of SRC, DST or LEN takes every value and changes nothing else. -/
def Obligations.StoredRegistersReadBack : Prop :=
  ∀ (s : State) (v : Word),
    hostRegRead 0x08 .word s = .next { s with busData := s.src } ∧
    hostRegRead 0x0C .word s = .next { s with busData := s.dst } ∧
    hostRegRead 0x10 .word s = .next { s with busData := s.len } ∧
    hostRegRead 0x14 .word s = .next { s with busData := 0 } ∧
    hostRegRead 0x1C .word s = .next { s with busData := s.progress } ∧
    hostRegRead 0x20 .word s = .next { s with busData := s.errAddr } ∧
    (s.status.busy = false →
      hostRegWrite 0x08 .word v s = .next { s with src := v } ∧
      hostRegWrite 0x0C .word v s = .next { s with dst := v } ∧
      hostRegWrite 0x10 .word v s = .next { s with len := v })

/-- R36: reserved offsets read as 0 and ignore writes; the reserved bits of CAP and STATUS read as 0. -/
def Obligations.ReservedOffsetsAndBits : Prop :=
  ∀ (off : Byte) (v : Word) (s : State),
    (off.toNat % 4 = 0 → (0x28 ≤ off.toNat ∧ off.toNat ≤ 0x3C ∨ 0x64 ≤ off.toNat ∧ off.toNat ≤ 0xFC) →
      hostRegRead off .word s = .next { s with busData := 0 } ∧ hostRegWrite off .word v s = .next s) ∧
    (readReg .cap s).extractLsb' 2 6 = 0 ∧ (readReg .cap s).extractLsb' 24 8 = 0 ∧
    (readReg .status s).extractLsb' 2 2 = 0 ∧ (readReg .status s).extractLsb' 8 24 = 0 ∧
    hostRegWrite 0x04 .word v s = .next s ∧ hostRegWrite 0x18 .word v s = .next s

/-- R37: while BUSY = 1 an aligned 32-bit write to any register, a command among them, changes nothing, and a read returns
the register's current value and changes nothing of the unit or its memory. -/
def Obligations.BusyDropsRegisterWrites : Prop :=
  ∀ (s : State) (off : Byte) (v : Word) (r : Reg), s.status.busy = true → regAt off = some r →
    hostRegWrite off .word v s = .next s ∧ hostRegRead off .word s = .next { s with busData := readReg r s }

/-- R38: a write to a read-only register has no effect at any time, and a read of any register changes only what the host
read. -/
def Obligations.ReadOnlyRegistersIgnoreWrites : Prop :=
  ∀ (s : State) (v : Word),
    (∀ off : Byte, off.toNat ∈ [0x00, 0x04, 0x18, 0x1C, 0x20, 0x24, 0x40, 0x44, 0x48, 0x4C, 0x50, 0x54, 0x58, 0x5C, 0x60] →
      hostRegWrite off .word v s = .next s) ∧
    (∀ (off : Byte) (r : Reg), regAt off = some r →
      hostRegRead off .word s = .next { s with busData := readReg r s })

/-- R80: a register access of another width or at an offset that is not a multiple of 4, a poll among them, is refused.
That a byte access of the host to the register window is such an access too is the model's choice, log 18. -/
def Obligations.OtherHostAccessesAreRefused : Prop :=
  ∀ (s : State) (off : Byte) (width : Width) (v mask : Word) (a : Word) (b : Byte),
    ((width ≠ .word ∨ off.toNat % 4 ≠ 0) →
      hostRegRead off width s = .refused .hostAccessOutsideContract ∧
      hostRegWrite off width v s = .refused .hostAccessOutsideContract) ∧
    (off.toNat % 4 ≠ 0 → hostPoll off mask v s = .refused .hostAccessOutsideContract) ∧
    (s.cfg.unitBase ≤ a.toNat ∧ a.toNat < s.cfg.unitBase + 256 →
      hostDataRead a s = .refused .hostAccessOutsideContract ∧
      hostDataWrite a b s = .refused .hostAccessOutsideContract)

/-- R28: the layout of STATUS, with the number that R31 and R211 give each error in ERR, that it ignores writes, and that,
in every state that meets the invariant, only the legal combinations are read. -/
def Obligations.StatusCombinations : Prop :=
  ∀ (s : State) (v : Word),
    hostRegWrite 0x18 .word v s = .next s ∧ hostRegRead 0x18 .word s = .next { s with busData := readReg .status s } ∧
    (readReg .status s).extractLsb' 0 1 = (if s.status.busy then 1 else 0) ∧
    (readReg .status s).extractLsb' 1 1 = (if s.status.done then 1 else 0) ∧
    (readReg .status s).extractLsb' 2 2 = 0 ∧
    (readReg .status s).extractLsb' 4 4 =
      (match s.status.err with
       | none => 0
       | some .invalidLength => 1
       | some .invalidBuffer => 2
       | some .illegalCommand => 3
       | some .busError => 4) ∧
    (readReg .status s).extractLsb' 8 24 = 0 ∧
    (LegalState s → readReg .status s ∈ ([0x00, 0x01, 0x02, 0x10, 0x20, 0x30, 0x40] : List Word))

/-! ### The commands -/

/-- R191: the word 0 is CM.NOP, which changes no state, busy or not. -/
def Obligations.NopChangesNothing : Prop :=
  decode 0x00000000 = .command .nop ∧ ∀ s : State, exec .nop s = .next s

/-- R192: CM.CLEAR, while idle, clears STATUS, PROGRESS and ERR_ADDR and nothing else; while BUSY = 1 it is ignored; with
PF = 1 it is an illegal word. -/
def Obligations.ClearClearsTheReport : Prop :=
  (∀ s : State,
    (s.status.busy = false →
      exec .clear s = .next { s with
        status := { busy := false, done := false, err := none }, progress := 0, errAddr := 0 }) ∧
    (s.status.busy = true → exec .clear s = .next s)) ∧
  decode 0x00000004 = .command .clear ∧ decode 0x00000014 = .illegal .prefetchNotAllowed

/-- R190, R198: every command written while BUSY = 1 is dropped, whatever its word. -/
def Obligations.BusyDropsCommands : Prop :=
  ∀ (s : State) (i : Instr) (w : Word), s.status.busy = true → exec i s = .next s ∧ cmdWrite w s = .next s

/-- R140, R190: CM.SCALAR with acceptable operands starts a scalar run over LEN bytes. -/
def Obligations.ScalarIsAccepted : Prop :=
  ∀ s : State, s.status.busy = false → Acceptable .scalar s.len.toNat s →
    exec .scalar s = .next { s with
      seq := { mode := .scalar, src := s.src, dst := s.dst, len := s.len, pf := false, idx := 0 }
      status := { busy := true, done := false, err := none }, progress := 0, errAddr := 0, raced := false }

/-- R169, R190: CM.BULK and CM.BULK.PF with the vector array and acceptable operands start a vector run over LEN bytes;
the second carries the prefetch hint. -/
def Obligations.BulkIsAccepted : Prop :=
  ∀ s : State, s.status.busy = false → s.cfg.vecPresent = true → Acceptable .bulk s.len.toNat s →
    exec .bulk s = .next { s with
      seq := { mode := .bulk, src := s.src, dst := s.dst, len := s.len, pf := false, idx := 0 }
      status := { busy := true, done := false, err := none }, progress := 0, errAddr := 0, raced := false } ∧
    exec .bulkPf s = .next { s with
      seq := { mode := .bulk, src := s.src, dst := s.dst, len := s.len, pf := true, idx := 0 }
      status := { busy := true, done := false, err := none }, progress := 0, errAddr := 0, raced := false }

/-- R193, R194, R195: CM.WB and CM.WB.PF start a run over IMG_W*IMG_H*3 bytes, on the vector path with the hint of the
command where the vector array is present, and else on the scalar path without a hint; LEN is neither read nor written. -/
def Obligations.WhiteBalanceIsAccepted : Prop :=
  ∀ s : State, s.status.busy = false →
    (s.cfg.vecPresent = true → Acceptable .bulk (s.cfg.imgW.toNat * s.cfg.imgH.toNat * 3) s →
      exec .wb s = .next { s with
        seq := { mode := .bulk, src := s.src, dst := s.dst,
                 len := BitVec.ofNat 32 (s.cfg.imgW.toNat * s.cfg.imgH.toNat * 3), pf := false, idx := 0 }
        status := { busy := true, done := false, err := none }, progress := 0, errAddr := 0, raced := false } ∧
      exec .wbPf s = .next { s with
        seq := { mode := .bulk, src := s.src, dst := s.dst,
                 len := BitVec.ofNat 32 (s.cfg.imgW.toNat * s.cfg.imgH.toNat * 3), pf := true, idx := 0 }
        status := { busy := true, done := false, err := none }, progress := 0, errAddr := 0, raced := false }) ∧
    (s.cfg.vecPresent = false → Acceptable .scalar (s.cfg.imgW.toNat * s.cfg.imgH.toNat * 3) s →
      ∀ i, (i = .wb ∨ i = .wbPf) → exec i s = .next { s with
        seq := { mode := .scalar, src := s.src, dst := s.dst,
                 len := BitVec.ofNat 32 (s.cfg.imgW.toNat * s.cfg.imgH.toNat * 3), pf := false, idx := 0 }
        status := { busy := true, done := false, err := none }, progress := 0, errAddr := 0, raced := false })

/-- R213: a length of 0 or not a multiple of the path's granularity fails with InvalidLength, and no other length does, for
each command that starts a run (CM.BULK where the vector array is present). -/
def Obligations.BadLengthIsRejected : Prop :=
  ∀ (s : State) (i : Instr) (path : Path) (n : Nat), s.status.busy = false → runOf i s = some (path, n) →
    ((i = .bulk ∨ i = .bulkPf) → s.cfg.vecPresent = true) →
    ∃ t, exec i s = .next t ∧
      ((n = 0 ∨ path = .scalar ∧ n % 3 ≠ 0 ∨ path = .bulk ∧ n % 24 ≠ 0) → RejectedWith .invalidLength s t) ∧
      (¬(n = 0 ∨ path = .scalar ∧ n % 3 ≠ 0 ∨ path = .bulk ∧ n % 24 ≠ 0) → t.status.err ≠ some .invalidLength)

/-- R214: for a length that passes R213, a null address, a range that passes 2^32 or a partial overlap fails with
InvalidBuffer, and every other buffer pair is accepted, the same source and destination among them. -/
def Obligations.BadBufferIsRejected : Prop :=
  ∀ (s : State) (i : Instr) (path : Path) (n : Nat), s.status.busy = false → runOf i s = some (path, n) →
    ((i = .bulk ∨ i = .bulkPf) → s.cfg.vecPresent = true) →
    n ≠ 0 → n % path.granularity = 0 →
    let bad := (s.src = 0 ∨ s.dst = 0) ∨
      (s.src.toNat + n > 2 ^ 32 ∨ s.dst.toNat + n > 2 ^ 32) ∨
      (s.src ≠ s.dst ∧ s.src.toNat < s.dst.toNat + n ∧ s.dst.toNat < s.src.toNat + n)
    ∃ t, exec i s = .next t ∧ (bad → RejectedWith .invalidBuffer s t) ∧
      (¬bad → t.status = { busy := true, done := false, err := none })

/-- R197: CM.BULK and CM.BULK.PF without the vector array fail with IllegalCommand, whatever the operands are. -/
def Obligations.BulkNeedsTheVectorArray : Prop :=
  ∀ (s : State) (i : Instr), s.status.busy = false → s.cfg.vecPresent = false → (i = .bulk ∨ i = .bulkPf) →
    ∃ t, exec i s = .next t ∧ RejectedWith .illegalCommand s t

/-- R212: a write to CMD, while idle, of a word that is no command, or of a CM.BULK word without the vector array, fails
with IllegalCommand before every other check. -/
def Obligations.IllegalWordIsRejected : Prop :=
  ∀ (s : State) (w : Word), s.status.busy = false →
    ((∀ i, w ≠ encode i) ∨ s.cfg.vecPresent = false ∧ (w = encode .bulk ∨ w = encode .bulkPf)) →
    ∃ t, cmdWrite w s = .next t ∧ RejectedWith .illegalCommand s t

/-- R217: exactly one condition is reported, the first in the order of the rule. -/
def Obligations.FirstFailingCheckIsReported : Prop :=
  ∀ (s : State) (i : Instr) (path : Path) (n : Nat), s.status.busy = false → runOf i s = some (path, n) →
    ∃ t, exec i s = .next t ∧ t.status =
      (if (i = .bulk ∨ i = .bulkPf) ∧ s.cfg.vecPresent = false then
         { busy := false, done := false, err := some .illegalCommand }
       else if n = 0 ∨ n % path.granularity ≠ 0 then { busy := false, done := false, err := some .invalidLength }
       else if s.src = 0 ∨ s.dst = 0 then { busy := false, done := false, err := some .invalidBuffer }
       else if s.src.toNat + n > 2 ^ 32 ∨ s.dst.toNat + n > 2 ^ 32 then
         { busy := false, done := false, err := some .invalidBuffer }
       else if s.src ≠ s.dst ∧ s.src.toNat < s.dst.toNat + n ∧ s.dst.toNat < s.src.toNat + n then
         { busy := false, done := false, err := some .invalidBuffer }
       else { busy := true, done := false, err := none })

/-- R62, R218, R24 to R26: no command reads or writes a data byte when it is written, and none changes SRC, DST, LEN, the
parameters, what is pending or what the host last read. -/
def Obligations.CommandsTouchNoData : Prop :=
  ∀ (i : Instr) (s : State) (m : Memory),
    ∃ t, exec i s = .next t ∧ exec i { s with mem := m } = .next { t with mem := m } ∧
      t.mem = s.mem ∧ t.cfg = s.cfg ∧ t.src = s.src ∧ t.dst = s.dst ∧ t.len = s.len ∧
      t.pending = s.pending ∧ t.busData = s.busData

/-! ### The datapath (40_color_matrix.md to 43_vector_mac_lane.md) -/

/-- R120: the converter is the clamp to [0,255] of the real number a/1000, rounded to nearest with ties up. -/
def Obligations.ConverterClampsThenRounds : Prop :=
  ∀ a : Int, ((satn a).toNat : Int) = ⌊min 255 (max 0 ((a : ℚ) / 1000)) + 1 / 2⌋

/-- R124: the converter is monotone and its thresholds are at 1000n - 500. -/
def Obligations.ConverterThresholds : Prop :=
  (∀ a b : Int, a ≤ b → (satn a).toNat ≤ (satn b).toNat) ∧
  (∀ (n : Nat) (a : Int), 1 ≤ n → n ≤ 254 →
    (satn a = BitVec.ofNat 8 n ↔ 1000 * (n : Int) - 500 ≤ a ∧ a ≤ 1000 * (n : Int) + 499)) ∧
  (∀ a : Int, satn a = 0 ↔ a ≤ 499) ∧
  (∀ a : Int, satn a = 255 ↔ 254500 ≤ a)

/-- R106: the ranges of the three accumulators, and that each bound is reached. -/
def Obligations.AccumulatorRanges : Prop :=
  (∀ s0 s1 s2 : Byte,
    (-256275 ≤ rowAcc 0 s0 s1 s2 ∧ rowAcc 0 s0 s1 s2 ≤ 533460) ∧
    (-126225 ≤ rowAcc 1 s0 s1 s2 ∧ rowAcc 1 s0 s1 s2 ≤ 376635) ∧
    (-204765 ≤ rowAcc 2 s0 s1 s2 ∧ rowAcc 2 s0 s1 s2 ≤ 769335)) ∧
  rowAcc 0 255 255 0 = -256275 ∧ rowAcc 0 0 0 255 = 533460 ∧
  rowAcc 1 0 0 255 = -126225 ∧ rowAcc 1 255 255 0 = 376635 ∧
  rowAcc 2 0 255 255 = -204765 ∧ rowAcc 2 255 0 0 = 769335

/-- R107, R108, R109, R110: the worked values of the colour matrix. -/
def Obligations.MatrixWorkedValues : Prop :=
  (∀ k, cm 0 0 0 k = 0) ∧
  (∀ k, cm 255 255 255 k = #v[255, 250, 255][k]) ∧
  (∀ k, cm 10 20 30 k = #v[49, 13, 13][k]) ∧
  (∀ k, rowAcc k 10 20 30 = #v[49020, 13070, 12720][k]) ∧
  (∀ k, cm 49 13 13 k = #v[0, 19, 137][k])

/-- R142: the scalar datapath: the accumulators hold the exact combination as an `s32` and the outputs are `CM` of the
samples, which stay. -/
def Obligations.ScalarDatapathComputesTheMatrix : Prop :=
  ∀ (p : PixelRegs) (k : Fin 3),
    ((correct p).acc[k]).toInt =
      coef k 0 * (p.sample[0].toNat : Int) + coef k 1 * (p.sample[1].toNat : Int) + coef k 2 * (p.sample[2].toNat : Int) ∧
    (correct p).out[k] = satn ((correct p).acc[k]).toInt ∧
    (correct p).out[k] = cm p.sample[0] p.sample[1] p.sample[2] k ∧
    (correct p).sample = p.sample

/-- R163: after U.VMUL(k), U.VMAC(k,1), U.VMAC(k,2) the accumulator of every lane holds `ACCk` of that lane's samples
exactly, and no other row or file changes. -/
def Obligations.LaneAccumulatorsAreExact : Prop :=
  ∀ (k : Fin 3) (l : Fin 8) (s : State),
    ((uVmac k 2 (uVmac k 1 (uVmul k s))).lanes.acc[k][l]).toInt =
      rowAcc k s.lanes.sample[0][l] s.lanes.sample[1][l] s.lanes.sample[2][l] ∧
    (∀ j : Fin 3, j ≠ k → (uVmac k 2 (uVmac k 1 (uVmul k s))).lanes.acc[j] = s.lanes.acc[j]) ∧
    (uVmac k 2 (uVmac k 1 (uVmul k s))).lanes.sample = s.lanes.sample ∧
    (uVmac k 2 (uVmac k 1 (uVmul k s))).lanes.narrow = s.lanes.narrow

/-- R160, R161, R164, R168, R173: what the gathers and rows of a group step leave in the narrowed file of lane `l`, in each
lane mode: the lane's own pixel only. -/
def Obligations.LanesComputeTheirOwnPixel : Prop :=
  ∀ (s : State) (k : Fin 3) (l : Fin 8),
    let a := s.seq.src.toNat + 24 * s.seq.idx.toNat + 3 * l.val
    (s.cfg.laneMode = .exact → (groupCompute s).lanes.narrow[k][l] =
      cm (s.mem.read a) (s.mem.read (a + 1)) (s.mem.read (a + 2)) k) ∧
    (s.cfg.laneMode = .tolerant → (groupCompute s).lanes.narrow[k][l] =
      vfn (s.mem.read a) (s.mem.read (a + 1)) (s.mem.read (a + 2)) k) ∧
    (groupCompute s).mem = s.mem

/-- R168: the tolerant lane function differs from `CM` by at most 1 in every channel and keeps the zero input. The form of
`VFN` (`CM` moved by a free choice) is the model's, log 8. -/
def Obligations.TolerantLanesAreWithinOne : Prop :=
  (∀ (s0 s1 s2 : Byte) (k : Fin 3),
    (vfn s0 s1 s2 k).toNat ≤ (cm s0 s1 s2 k).toNat + 1 ∧ (cm s0 s1 s2 k).toNat ≤ (vfn s0 s1 s2 k).toNat + 1) ∧
  (∀ k, vfn 0 0 0 k = 0)

/-- R105, R7: `OUT_MAP` sends the three outputs to three different positions, and the identity to their own. -/
def Obligations.OutMapIsAPermutation : Prop :=
  (∀ (m : OutMap) (p : Fin 3), ∃! k, outPosition m k = p) ∧ (∀ k, outPosition .to012 k = k)

/-! ### A step of a run (42_scalar_corrector.md R143, 43_vector_mac_lane.md R170) -/

/-- R143, R170, R144, R171: with every access of the step `MemOK`, a turn of the unit in a run writes the outputs of its
pixels to their places (unless a host write has raced with the run, R74: its bytes are then unspecified, log 14), leaves
every other byte of memory, advances SEQ.idx and PROGRESS, and completes the run exactly at its length. -/
def Obligations.RunStepWritesItsPixels : Prop :=
  ∀ (path : Path) (s : State), LegalState s → s.status.busy = true → RunInv path s →
    let n := path.granularity
    (∀ j, j < n → memOK s.cfg (stepSrc n s + j) = true ∧ memOK s.cfg (stepDst n s + j) = true) →
    let t := unitStep s
    (s.raced = false → ∀ i, 3 * i < n → ∀ k : Fin 3,
      t.mem.read (stepDst n s + 3 * i + outPosition s.cfg.outMap k) =
        pixelOutput path s.cfg.laneMode s.mem (stepSrc n s + 3 * i) k) ∧
    (∀ a, a < stepDst n s ∨ stepDst n s + n ≤ a → t.mem.read a = s.mem.read a) ∧
    t.seq.idx.toNat = s.seq.idx.toNat + 1 ∧
    t.progress.toNat = n * (s.seq.idx.toNat + 1) ∧
    t.errAddr = 0 ∧ t.errorRecord = s.errorRecord ∧ TurnFrame s t ∧
    (if n * (s.seq.idx.toNat + 1) = s.seq.len.toNat
     then t.status = { busy := false, done := true, err := none } ∧ t.seq.mode = .idle ∧ t.progress = s.seq.len
     else t.status = { busy := true, done := false, err := none } ∧ t.seq.mode = path.mode)

/-- R215, R216, R219, R220, first case: a failing read of the step ends the run with BusError at one of the failing source
addresses and no byte of memory is written. -/
def Obligations.FailingReadEndsTheRun : Prop :=
  ∀ (path : Path) (s : State), LegalState s → s.status.busy = true → RunInv path s →
    let n := path.granularity
    (∃ j, j < n ∧ memOK s.cfg (stepSrc n s + j) = false) →
    ∃ a, stepSrc n s ≤ a ∧ a < stepSrc n s + n ∧ memOK s.cfg a = false ∧
      BusErrorAt a s (unitStep s) ∧ (unitStep s).mem = s.mem

/-- R215, R216, R219, R220, second case: with every read of the step in order, a failing write ends the run with BusError
at one of the failing destination addresses; only the step's own destination bytes may change (they are unspecified). -/
def Obligations.FailingWriteEndsTheRun : Prop :=
  ∀ (path : Path) (s : State), LegalState s → s.status.busy = true → RunInv path s →
    let n := path.granularity
    (∀ j, j < n → memOK s.cfg (stepSrc n s + j) = true) →
    (∃ j, j < n ∧ memOK s.cfg (stepDst n s + j) = false) →
    ∃ a, stepDst n s ≤ a ∧ a < stepDst n s + n ∧ memOK s.cfg a = false ∧
      BusErrorAt a s (unitStep s) ∧
      (∀ x, x < stepDst n s ∨ stepDst n s + n ≤ x → (unitStep s).mem.read x = s.mem.read x)

/-- R63: the register window is not `MemOK`, whatever the platform's memory is, so a step of a run that has a byte of the
window among its source or destination bytes ends the run with BusError. Apart from that `MemOK` is the platform's: here
the list of its ranges, log 7, below 2^32, log 25. -/
def Obligations.RegisterWindowIsNotMemory : Prop :=
  (∀ (p : Params) (a : Nat), p.unitBase ≤ a ∧ a < p.unitBase + 256 → memOK p a = false) ∧
  (∀ (p : Params) (a : Nat), a < 2 ^ 32 → a < p.unitBase ∨ p.unitBase + 256 ≤ a →
    (memOK p a = true ↔ ∃ r, r ∈ p.memMap ∧ r.base ≤ a ∧ a < r.base + r.size)) ∧
  (∀ (path : Path) (s : State), LegalState s → s.status.busy = true → RunInv path s →
    let n := path.granularity
    (∃ j, j < n ∧ (inWindow s.cfg (stepSrc n s + j) = true ∨ inWindow s.cfg (stepDst n s + j) = true)) →
      (unitStep s).status = { busy := false, done := false, err := some .busError } ∧
        memOK s.cfg (unitStep s).errAddr.toNat = false)

/-- R166, R78: the prefetch hint has no effect on a turn of the unit, and what it may read is the next group of the source
range. -/
def Obligations.PrefetchHasNoEffect : Prop :=
  ∀ (s : State) (b : Bool),
    unitStep { s with seq := { s.seq with pf := b } } =
      { unitStep s with seq := { (unitStep s).seq with pf := b } } ∧
    (∀ a n, prefetchRange s = some (a, n) →
      s.seq.pf = true ∧ n = 24 ∧ a = s.seq.src.toNat + 24 * (s.seq.idx.toNat + 1) ∧
        a + n ≤ s.seq.src.toNat + s.seq.len.toNat)

/-- R240: a turn of an idle unit changes nothing. R15: with nothing pending a step is the unit's turn, and a turn of the
unit that is pending is that turn. The order of the agents as a list is the model's choice, log 5, and that the unit moves
whenever nothing is pending is log 6's reading of the fairness of R251. -/
def Obligations.TurnsOfTheUnit : Prop :=
  ∀ s : State,
    (s.pending = [] → step s = .next (unitStep s)) ∧
    (∀ rest, s.pending = .unitTurn :: rest → step s = .next (unitStep { s with pending := rest })) ∧
    (s.seq.mode = .idle → unitStep s = s)

/-! ### Whole runs -/

/-- R145, R68, R72, R252, R144: a run whose bytes are all `MemOK`, left alone by the host from its step `SEQ.idx` on (0
when it has just been accepted), completes after exactly the len/granularity - SEQ.idx steps that are left. Unless a host
write has raced with it (R74), every pixel those steps write is the output of the source pixel as it was (in place too);
every byte outside the rest of the destination stays as it was, raced or not. -/
def Obligations.RunCorrectsTheBuffer : Prop :=
  ∀ (path : Path) (s : State), LegalState s → s.status.busy = true → RunInv path s → s.pending = [] → RunMemOK s →
    let done := path.granularity * s.seq.idx.toNat
    ∃ t, core.run (s.seq.len.toNat / path.granularity - s.seq.idx.toNat) s = .next t ∧
      t.status = { busy := false, done := true, err := none } ∧ t.progress = s.seq.len ∧ t.errAddr = 0 ∧
      t.errorRecord = s.errorRecord ∧
      (s.raced = false → ∀ i, done ≤ 3 * i → 3 * i < s.seq.len.toNat → ∀ k : Fin 3,
        t.mem.read (s.seq.dst.toNat + 3 * i + outPosition s.cfg.outMap k) =
          pixelOutput path s.cfg.laneMode s.mem (s.seq.src.toNat + 3 * i) k) ∧
      (∀ a, a < s.seq.dst.toNat + done ∨ s.seq.dst.toNat + s.seq.len.toNat ≤ a → t.mem.read a = s.mem.read a)

/-- R172: from the same idle state, a completed CM.BULK leaves exactly the memory a completed CM.SCALAR leaves in `EXACT`
mode, and differs from it by at most 1 in every byte in any lane mode. -/
def Obligations.ScalarAndBulkAgree : Prop :=
  ∀ s : State, LegalState s → s.status.busy = false → s.cfg.vecPresent = true → Acceptable .bulk s.len.toNat s →
    (∀ a, (s.src.toNat ≤ a ∧ a < s.src.toNat + s.len.toNat) ∨ (s.dst.toNat ≤ a ∧ a < s.dst.toNat + s.len.toNat) →
      memOK s.cfg a = true) →
    ∃ t u,
      core.run (1 + s.len.toNat / 3) { s with pending := [command .scalar] } = .next t ∧
      core.run (1 + s.len.toNat / 24) { s with pending := [command .bulk] } = .next u ∧
      t.status = { busy := false, done := true, err := none } ∧
      u.status = { busy := false, done := true, err := none } ∧
      (s.cfg.laneMode = .exact → t.mem = u.mem) ∧
      (∀ a, (t.mem.read a).toNat ≤ (u.mem.read a).toNat + 1 ∧ (u.mem.read a).toNat ≤ (t.mem.read a).toNat + 1)

/-- R196: CM.WB leaves the same memory whichever path it takes in `EXACT` mode, and memories at most 1 apart in every byte
in any lane mode. -/
def Obligations.WhiteBalancePathsAgree : Prop :=
  ∀ s : State, LegalState s → s.status.busy = false → s.cfg.wellFormed = true → Acceptable .bulk s.cfg.frameBytes s →
    (∀ a, (s.src.toNat ≤ a ∧ a < s.src.toNat + s.cfg.frameBytes) ∨
        (s.dst.toNat ≤ a ∧ a < s.dst.toNat + s.cfg.frameBytes) → memOK s.cfg a = true) →
    ∃ t u,
      core.run (1 + s.cfg.frameBytes / 24)
        { s with cfg := { s.cfg with vecPresent := true }, pending := [command .wb] } = .next t ∧
      core.run (1 + s.cfg.frameBytes / 3)
        { s with cfg := { s.cfg with vecPresent := false }, pending := [command .wb] } = .next u ∧
      t.status = { busy := false, done := true, err := none } ∧
      u.status = { busy := false, done := true, err := none } ∧
      (s.cfg.laneMode = .exact → t.mem = u.mem) ∧
      (∀ a, (t.mem.read a).toNat ≤ (u.mem.read a).toNat + 1 ∧ (u.mem.read a).toNat ≤ (t.mem.read a).toNat + 1)

/-! ### The whole machine -/

/-- The invariant holds after reset, for any parameters. -/
def Obligations.InvariantAtReset : Prop := (∀ p : Params, LegalState (State.resetWith p)) ∧ LegalState State.reset

/-- R28, R32, R33, R40, R41: every step keeps the invariant, whatever the host does: the memory's canonical form, the
legal combinations of STATUS and SEQ, PROGRESS and ERR_ADDR. -/
def Obligations.EveryStepKeepsTheInvariant : Prop := ∀ s t : State, LegalState s → step s = .next t → LegalState t

/-- R7, R8, R20: no step changes a parameter. -/
def Obligations.ParametersNeverChange : Prop := ∀ s t : State, step s = .next t → t.cfg = s.cfg

/-- R24, R25, R26, R37: SRC, DST and LEN change only by a host write to that very register while idle, or by reset. -/
def Obligations.OnlyTheHostWritesOperands : Prop :=
  ∀ s t : State, step s = .next t → (∀ rest, s.pending ≠ .reset :: rest) →
    (t.src ≠ s.src → s.status.busy = false ∧ ∃ rest, s.pending = .regWrite 0x08 .word t.src :: rest) ∧
    (t.dst ≠ s.dst → s.status.busy = false ∧ ∃ rest, s.pending = .regWrite 0x0C .word t.dst :: rest) ∧
    (t.len ≠ s.len → s.status.busy = false ∧ ∃ rest, s.pending = .regWrite 0x10 .word t.len :: rest)

/-- R68, R62, R51: in a state that meets the invariant, the only bytes of memory a step can change are a byte the host
writes in that step and, while BUSY = 1, bytes of the current run's destination. -/
def Obligations.OnlyTheDestinationChanges : Prop :=
  ∀ (s t : State) (x : Nat), LegalState s → step s = .next t → t.mem.read x ≠ s.mem.read x →
    (s.status.busy = true ∧ s.seq.dst.toNat ≤ x ∧ x < s.seq.dst.toNat + s.seq.len.toNat) ∨
    (∃ (a : Word) (v : Byte) (rest : List Event), s.pending = .dataWrite a v :: rest ∧ a.toNat = x)

/-- R232: the launch-level record only grows, by every step, and a step that puts a new error into STATUS adds it. That a
reset keeps the record too is the model's choice, log 17. -/
def Obligations.ErrorRecordOnlyGrows : Prop :=
  ∀ s t : State, step s = .next t →
    ∃ more, t.errorRecord = s.errorRecord ++ more ∧
      (more = [] → t.status.err = s.status.err ∨ t.status.err = none) ∧
      (∀ r, r ∈ more → t.status.err = some r.code ∧ t.errAddr = r.addr)

/-- R253, R32: while a run is in progress no step but a reset lowers PROGRESS, and a turn of the unit that ends in no error
raises it by the granularity. -/
def Obligations.ProgressNeverFallsInARun : Prop :=
  ∀ (path : Path) (s t : State), LegalState s → s.status.busy = true → RunInv path s → step s = .next t →
    (∀ rest, s.pending ≠ .reset :: rest) →
    s.progress.toNat ≤ t.progress.toNat ∧ t.progress.toNat ≤ s.seq.len.toNat ∧
    (s.pending = [] → t.status.err = none → t.progress.toNat = s.progress.toNat + path.granularity)

/-- R240, R241, R50, R51: reset, during a run or not, leaves the reset values, the working registers apart, which are
unspecified after it (R46, R50) and of which nothing is said here; only destination bytes of the step in progress may
change in memory. What the reset keeps outside the unit is the model's choice, logs 15 and 17. -/
def Obligations.ResetAtAnyTime : Prop :=
  ∀ (s : State) (rest : List Event), LegalState s → s.pending = .reset :: rest →
    ∃ t, step s = .next t ∧
      t = { State.resetWith s.cfg with
        lanes := t.lanes, pixel := t.pixel, mem := t.mem,
        errorRecord := s.errorRecord, pending := rest, busData := s.busData, draws := t.draws } ∧
      (∀ x, (s.status.busy = false ∨ x < stepDst (stepBytes s) s ∨ stepDst (stepBytes s) s + stepBytes s ≤ x) →
        t.mem.read x = s.mem.read x)

/-- Host accesses to the data space outside the register window. While idle, or away from the run's buffers, they are
plain reads and writes of that byte: that they are single bytes, and that every byte outside the window answers the host,
is the model's choice, log 23 (the unit does not come between the host and memory, R73, R77). R74: a read of a destination
byte during a run returns any value and changes nothing else (a free value, log 13); a write to a buffer byte during a run
leaves every byte outside the destination but its own as it was, and that the run is marked as raced is the model's form
of that rule, log 14. -/
def Obligations.HostDataAccesses : Prop :=
  ∀ (s : State) (a : Word) (v : Byte), s.mem.wf = true →
    a.toNat < s.cfg.unitBase ∨ s.cfg.unitBase + 256 ≤ a.toNat →
    let source := s.seq.src.toNat ≤ a.toNat ∧ a.toNat < s.seq.src.toNat + s.seq.len.toNat
    let destination := fun x : Nat => s.seq.dst.toNat ≤ x ∧ x < s.seq.dst.toNat + s.seq.len.toNat
    (s.status.busy = false ∨ ¬destination a.toNat →
      hostDataRead a s = .next { s with busData := (s.mem.read a.toNat).setWidth 32 }) ∧
    (s.status.busy = true → destination a.toNat →
      ∃ t, hostDataRead a s = .next t ∧ t = { s with busData := t.busData, draws := t.draws }) ∧
    (s.status.busy = false ∨ ¬source ∧ ¬destination a.toNat →
      ∃ t, hostDataWrite a v s = .next t ∧ t = { s with mem := t.mem } ∧
        (∀ x, t.mem.read x = if x = a.toNat then v else s.mem.read x)) ∧
    (s.status.busy = true → source ∨ destination a.toNat →
      ∃ t, hostDataWrite a v s = .next t ∧ t = { s with mem := t.mem, raced := true, draws := t.draws } ∧
        (∀ x, ¬destination x → t.mem.read x = if x = a.toNat then v else s.mem.read x))

/-- R93: POLL reads once; it ends when the masked value matches and else stays with a turn of the unit before its next read
(the place of that turn is the model's choice, log 19). -/
def Obligations.PollReadsUntilItMatches : Prop :=
  ∀ (s : State) (off : Byte) (mask v : Word) (r : Reg) (rest : List Event),
    s.pending = .poll off mask v :: rest → regAt off = some r →
    (readReg r s &&& mask = v → step s = .next { s with pending := rest, busData := readReg r s }) ∧
    (readReg r s &&& mask ≠ v →
      step s = .next { s with pending := .unitTurn :: .poll off mask v :: rest, busData := readReg r s })
end

