-- ==== Sys2Proof/Laws/Decode.lean ====
section
/-! SUPPORT. The laws of the command word: its fields determine it and are determined by it, and the decoder's cases on
the fields. -/

namespace Sys2Proof

/-- A word is the concatenation of its fields (30_encoding.md R82). -/
theorem fieldsOf_word (w : Word) : (fieldsOf w).word = w := by
  apply BitVec.eq_of_getLsbD_eq
  intro i hi
  simp only [fieldsOf, CommandFields.word, BitVec.getLsbD_append, BitVec.getLsbD_extractLsb']
  by_cases h4 : i < 4
  · simp [h4]
  · by_cases h5 : i < 5
    · have : i = 4 := by omega
      subst this; simp
    · have h6 : ¬ i - 4 < 1 := by omega
      simp only [h4, h6, decide_false, if_false]
      rw [show 5 + (i - 4 - 1) = i by omega]
      simp
      omega

/-- The fields of a word made of fields. -/
theorem fieldsOf_fieldsWord (f : CommandFields) : fieldsOf f.word = f := by
  obtain ⟨op, pf, rsv⟩ := f
  simp only [fieldsOf, CommandFields.word, CommandFields.mk.injEq]
  refine ⟨?_, ?_, ?_⟩ <;> apply BitVec.eq_of_getLsbD_eq <;> intro i hi <;>
    simp only [BitVec.getLsbD_append, BitVec.getLsbD_extractLsb']
  · simp [hi]
  · have : i = 0 := by omega
    subst this; simp
  · have h1 : ¬ 5 + i < 4 := by omega
    have h2 : ¬ 5 + i - 4 < 1 := by omega
    rw [show 5 + i - 4 - 1 = i by omega]
    simp [hi, h1, h2]

/-- The fields decode to a command exactly when they are that command's fields (R86, R87). -/
theorem decode_fields (f : CommandFields) (i : Instr) : f.decode = .command i ↔ f = i.fields := by
  obtain ⟨op, pf, rsv⟩ := f
  by_cases hr : rsv = 0
  · subst hr
    revert op pf
    cases i <;> decide
  · have h1 : CommandFields.decode ⟨op, pf, rsv⟩ = .illegal .reservedBits := by
      unfold CommandFields.decode; exact if_pos hr
    rw [h1]
    have h2 : i.fields.rsv = 0 := by cases i <;> rfl
    constructor
    · intro h; cases h
    · intro h; rw [← h] at h2; exact absurd h2 hr

/-- With RSV zero the fields are illegal exactly in the cases of R88. -/
theorem decode_illegal_fields (f : CommandFields) :
    (∃ why, f.decode = .illegal why) ↔
      (f.rsv ≠ 0 ∨ 5 ≤ f.op.toNat ∨ (f.pf = 1 ∧ (f.op = 0 ∨ f.op = 1 ∨ f.op = 4))) := by
  obtain ⟨op, pf, rsv⟩ := f
  by_cases hr : rsv = 0
  · subst hr
    have : ∀ d : Decoded, (∃ why, d = .illegal why) ↔ d.instr? = none := by
      intro d; cases d <;> simp [Decoded.instr?]
    rw [this]
    revert op pf
    decide
  · have h1 : CommandFields.decode ⟨op, pf, rsv⟩ = .illegal .reservedBits := by
      unfold CommandFields.decode; exact if_pos hr
    rw [h1]
    exact ⟨fun _ => .inl hr, fun _ => ⟨_, rfl⟩⟩

end Sys2Proof
end

