-- ==== Sys2Proof/Laws/Matrix.lean ====
section
/-! SUPPORT. The laws of the colour matrix, of the converter, and of the two datapaths that compute them. -/

namespace Sys2Proof.Machine

/-- The value at a row. -/
@[simp] theorem perRow_get {α : Type} (f : Fin 3 → α) (i : Nat) (h : i < 3) : (perRow f)[i] = f ⟨i, h⟩ := by
  simp [perRow]

/-- The value at a lane. -/
@[simp] theorem perLane_get {α : Type} (f : Fin 8 → α) (i : Nat) (h : i < 8) : (perLane f)[i] = f ⟨i, h⟩ := by
  simp [perLane]

theorem rowAcc_0 (s0 s1 s2 : Byte) :
    rowAcc 0 s0 s1 s2 = -636 * s0.toNat + -369 * s1.toNat + 2092 * s2.toNat := rfl
theorem rowAcc_1 (s0 s1 s2 : Byte) :
    rowAcc 1 s0 s1 s2 = 162 * s0.toNat + 1315 * s1.toNat + -495 * s2.toNat := rfl
theorem rowAcc_2 (s0 s1 s2 : Byte) :
    rowAcc 2 s0 s1 s2 = 3017 * s0.toNat + -664 * s1.toNat + -139 * s2.toNat := rfl

/-- Every coefficient is at most 3017 in size, so one product fits an `s32` (43_vector_mac_lane.md R162). -/
theorem coef_bounds (k j : Fin 3) : -664 ≤ coef k j ∧ coef k j ≤ 3017 := by
  fin_cases k <;> fin_cases j <;> decide

/-- One product of the datapath is far from the ends of an `s32`. -/
theorem product_bounds (k j : Fin 3) (s : Byte) :
    -169320 ≤ coef k j * s.toNat ∧ coef k j * s.toNat ≤ 769335 := by
  have h1 := coef_bounds k j
  have h2 : (s.toNat : Int) ≤ 255 := by have := s.isLt; omega
  have h3 : (0 : Int) ≤ s.toNat := by omega
  constructor <;> nlinarith

theorem toInt_ofInt_small {a : Int} (h1 : -2147483648 ≤ a) (h2 : a < 2147483648) :
    (BitVec.ofInt 32 a).toInt = a := by
  rw [BitVec.toInt_ofInt, Int.bmod_eq_of_le] <;> omega

/-- No accumulator of the scalar path overflows (40_color_matrix.md R106). -/
theorem rowAcc_toInt (k : Fin 3) (s0 s1 s2 : Byte) :
    (BitVec.ofInt 32 (rowAcc k s0 s1 s2)).toInt = rowAcc k s0 s1 s2 := by
  have h0 := product_bounds k 0 s0
  have h1 := product_bounds k 1 s1
  have h2 := product_bounds k 2 s2
  apply toInt_ofInt_small <;> unfold rowAcc <;> omega

/-- The converter's value as a number (41_saturating_narrow.md R121). -/
theorem satn_toNat (a : Int) : (satn a).toNat = (min 255 (max 0 ((a + 500) / 1000))).toNat := by
  unfold satn
  rw [BitVec.toNat_ofNat]
  apply Nat.mod_eq_of_lt
  omega

/-- `/` is the floor division of R10 here. -/
theorem satn_fdiv (a : Int) : satn a = BitVec.ofNat 8 (min 255 (max 0 (Int.fdiv (a + 500) 1000))).toNat := by
  rw [Int.fdiv_eq_ediv_of_nonneg _ (by decide)]; rfl

/-- The scalar datapath computes `CM` (42_scalar_corrector.md R142). -/
theorem correct_out_get (p : PixelRegs) (k : Fin 3) :
    (correct p).out[k] = cm p.sample[0] p.sample[1] p.sample[2] k := by
  simp [correct, cm, -BitVec.toInt_ofInt, rowAcc_toInt]

@[simp] theorem correct_sample (p : PixelRegs) : (correct p).sample = p.sample := rfl

/-- `VFN` at (0,0,0) (43_vector_mac_lane.md R168, `VFN_ZERO`). -/
theorem vfn_zero (k : Fin 3) : vfn 0 0 0 k = 0 := by simp [vfn]

theorem nudge_toNat (c : Fin 3) (v : Byte) : (nudge c v).toNat = min 255 (v.toNat + c.val - 1) := by
  unfold nudge
  rw [BitVec.toNat_ofNat]
  apply Nat.mod_eq_of_lt
  omega

/-- The value of `CM` at the all-zero pixel (40_color_matrix.md R107). -/
theorem cm_zero (k : Fin 3) : cm 0 0 0 k = 0 := by fin_cases k <;> decide

/-- Every lane-independent function within 1 of `CM` that is (0,0,0) at (0,0,0) is a `VFN` of the model for some choice,
so the free value leaves out no `VFN` the spec allows (43_vector_mac_lane.md R168). -/
theorem nudge_covers (v w : Byte) (h1 : w.toNat ≤ v.toNat + 1) (h2 : v.toNat ≤ w.toNat + 1) :
    ∃ c, nudge c v = w := by
  have hv := v.isLt
  have hw := w.isLt
  refine ⟨⟨w.toNat + 1 - v.toNat, by omega⟩, BitVec.eq_of_toNat_eq ?_⟩
  rw [nudge_toNat]
  simp only
  omega

/-! ### The micro-operations (43_vector_mac_lane.md R161 to R165) -/

@[simp] theorem uGather_sample (c j : Fin 3) (s : State) (l : Fin 8) :
    (uGather c s).lanes.sample[j][l] =
      if c = j then s.mem.read (stepSrc 24 s + 3 * l + c) else s.lanes.sample[j][l] := by
  simp only [uGather, Fin.getElem_fin, Vector.getElem_set, Fin.ext_iff]
  split <;> simp_all

theorem uVmul_acc (k : Fin 3) (s : State) (l : Fin 8) :
    ((uVmul k s).lanes.acc[k][l]).toInt = coef k 0 * (s.lanes.sample[0][l]).toNat := by
  have h0 := product_bounds k 0 s.lanes.sample[0][l]
  simp only [uVmul, Fin.getElem_fin, Vector.getElem_set_self, perLane_get] at h0 ⊢
  apply toInt_ofInt_small <;> omega

theorem uVmac_acc (k j : Fin 3) (s : State) (l : Fin 8)
    (h1 : -2147483648 ≤ (s.lanes.acc[k][l]).toInt + coef k j * (s.lanes.sample[j][l]).toNat)
    (h2 : (s.lanes.acc[k][l]).toInt + coef k j * (s.lanes.sample[j][l]).toNat < 2147483648) :
    ((uVmac k j s).lanes.acc[k][l]).toInt = (s.lanes.acc[k][l]).toInt + coef k j * (s.lanes.sample[j][l]).toNat := by
  simp only [uVmac, Fin.getElem_fin, Vector.getElem_set_self, perLane_get] at h1 h2 ⊢
  exact toInt_ofInt_small h1 h2

/-- After U.VMUL(k), U.VMAC(k,1), U.VMAC(k,2) the accumulator holds `ACCk` exactly (R163). -/
theorem uVmac_row (k : Fin 3) (s : State) (l : Fin 8) :
    ((uVmac k 2 (uVmac k 1 (uVmul k s))).lanes.acc[k][l]).toInt =
      rowAcc k s.lanes.sample[0][l] s.lanes.sample[1][l] s.lanes.sample[2][l] := by
  have h0 := product_bounds k 0 s.lanes.sample[0][l]
  have h1 := product_bounds k 1 s.lanes.sample[1][l]
  have h2 := product_bounds k 2 s.lanes.sample[2][l]
  have e0 := uVmul_acc k s l
  have e1 := uVmac_acc k 1 (uVmul k s) l
  rw [e0] at e1
  have e1' := e1 (by change _ ≤ _ + coef k 1 * (s.lanes.sample[1][l]).toNat; omega)
    (by change _ + coef k 1 * (s.lanes.sample[1][l]).toNat < _; omega)
  have e2 := uVmac_acc k 2 (uVmac k 1 (uVmul k s)) l
  rw [e1'] at e2
  exact e2 (by change _ ≤ _ + coef k 1 * (s.lanes.sample[1][l]).toNat + coef k 2 * (s.lanes.sample[2][l]).toNat; omega)
    (by change _ + coef k 1 * (s.lanes.sample[1][l]).toNat + coef k 2 * (s.lanes.sample[2][l]).toNat < _; omega)

/-- What row `k` of a group step leaves in the narrowed file (R164, R168). -/
theorem uRow_narrow (k j : Fin 3) (s : State) (l : Fin 8) :
    (uRow k s).lanes.narrow[j][l] =
      if k = j then laneOutput s.cfg.laneMode s.lanes.sample[0][l] s.lanes.sample[1][l] s.lanes.sample[2][l] k
      else s.lanes.narrow[j][l] := by
  have hacc := uVmac_row k s l
  unfold uRow uSatn
  have hm : (uVmac k 2 (uVmac k 1 (uVmul k s))).cfg.laneMode = s.cfg.laneMode := rfl
  rw [hm]
  cases s.cfg.laneMode
  · simp only [uSatnExact, Fin.getElem_fin, Vector.getElem_set, Fin.ext_iff] at hacc ⊢
    split
    · rename_i hkj
      simp only [perLane_get]
      rw [hacc]
      rfl
    · rfl
  · simp only [uSatnTolerant, Fin.getElem_fin, Vector.getElem_set, Fin.ext_iff]
    split
    · simp only [perLane_get]
      rfl
    · rfl

end Sys2Proof.Machine
end

