-- ==== Sys2Proof/Laws/Memory.lean ====
section
/-! SUPPORT. The laws of the data space: reads after writes, and every write keeps the canonical form. -/

namespace Sys2Proof.Machine

theorem Memory.wfFrom_cons {lo a : Nat} {v : Byte} {rest : Memory} :
    Memory.wfFrom lo ((a, v) :: rest) = true ↔
      lo ≤ a ∧ a < addressLimit ∧ v ≠ Memory.unlisted ∧ Memory.wfFrom (a + 1) rest = true := by
  simp [Memory.wfFrom, and_assoc]

theorem Memory.wfFrom_mono {lo lo' : Nat} (hle : lo' ≤ lo) :
    ∀ {m : Memory}, Memory.wfFrom lo m = true → Memory.wfFrom lo' m = true
  | [], _ => rfl
  | (_, _) :: _, h => by
    rw [Memory.wfFrom_cons] at h ⊢
    exact ⟨by omega, h.2⟩

/-- Below the first listed address everything reads as unlisted. -/
theorem Memory.read_below {lo : Nat} :
    ∀ {m : Memory} {x : Nat}, Memory.wfFrom lo m = true → x < lo → m.read x = Memory.unlisted
  | [], _, _, _ => rfl
  | (a, v) :: rest, x, h, hx => by
    rw [Memory.wfFrom_cons] at h
    have hne : x ≠ a := by omega
    simp only [Memory.read, hne, if_false]
    exact Memory.read_below h.2.2.2 (by omega)

theorem Memory.read_cell {a : Nat} {v : Byte} {rest : Memory} (h : Memory.wfFrom (a + 1) rest = true) (x : Nat) :
    (Memory.cell a v rest).read x = if x = a then v else rest.read x := by
  unfold Memory.cell
  by_cases hv : v = Memory.unlisted
  · by_cases hx : x = a
    · subst hx; simp [hv, Memory.read_below h (Nat.lt_succ_self x)]
    · simp [hv, hx]
  · simp [hv, Memory.read]

theorem Memory.wfFrom_cell {lo a : Nat} {v : Byte} {rest : Memory} (hlo : lo ≤ a) (ha : a < addressLimit)
    (h : Memory.wfFrom (a + 1) rest = true) : Memory.wfFrom lo (Memory.cell a v rest) = true := by
  unfold Memory.cell
  by_cases hv : v = Memory.unlisted
  · simpa [hv] using Memory.wfFrom_mono (by omega : lo ≤ a + 1) h
  · simpa [hv] using Memory.wfFrom_cons.2 ⟨hlo, ha, hv, h⟩

theorem Memory.read_put {lo : Nat} :
    ∀ {m : Memory} {a : Nat} {v : Byte}, Memory.wfFrom lo m = true →
      ∀ x, (m.put a v).read x = if x = a then v else m.read x
  | [], a, v, _, x => by
    simp only [Memory.put]
    rw [Memory.read_cell rfl]
  | (b, w) :: rest, a, v, h, x => by
    rw [Memory.wfFrom_cons] at h
    obtain ⟨h1, h2, h3, h4⟩ := h
    simp only [Memory.put]
    split
    · rename_i hab
      rw [Memory.read_cell (Memory.wfFrom_cons.2 ⟨by omega, h2, h3, h4⟩)]
    · split
      · rename_i _ hab
        subst hab
        rw [Memory.read_cell h4]
        simp only [Memory.read]
        split <;> simp_all
      · rename_i _ hab
        simp only [Memory.read, Memory.read_put h4 x]
        split
        · rename_i hxb; subst hxb; simp [Ne.symm hab]
        · rfl

theorem Memory.wfFrom_put :
    ∀ {m : Memory} {lo a : Nat} {v : Byte}, Memory.wfFrom lo m = true → lo ≤ a → a < addressLimit →
      Memory.wfFrom lo (m.put a v) = true
  | [], _, _, _, _, hlo, ha => Memory.wfFrom_cell hlo ha rfl
  | (b, w) :: rest, lo, a, v, h, hlo, ha => by
    rw [Memory.wfFrom_cons] at h
    obtain ⟨h1, h2, h3, h4⟩ := h
    simp only [Memory.put]
    split
    · exact Memory.wfFrom_cell hlo ha (Memory.wfFrom_cons.2 ⟨by omega, h2, h3, h4⟩)
    · split
      · rename_i _ hab
        subst hab
        exact Memory.wfFrom_cell hlo ha h4
      · exact Memory.wfFrom_cons.2 ⟨h1, h2, h3, Memory.wfFrom_put h4 (by omega) ha⟩

/-- Every write keeps the canonical form. -/
theorem Memory.wf_write {m : Memory} (h : m.wf = true) (a : Nat) (v : Byte) : (m.write a v).wf = true := by
  unfold Memory.write
  split
  · exact Memory.wfFrom_put h (Nat.zero_le a) ‹_›
  · exact h

/-- A write gives its byte to its own address and leaves every other address alone. -/
theorem Memory.read_write {m : Memory} (h : m.wf = true) {a : Nat} (ha : a < addressLimit) (v : Byte) (x : Nat) :
    (m.write a v).read x = if x = a then v else m.read x := by
  simp only [Memory.write, ha, if_true]
  exact Memory.read_put h x

theorem Memory.read_write_same {m : Memory} (h : m.wf = true) {a : Nat} (ha : a < addressLimit) (v : Byte) :
    (m.write a v).read a = v := by
  rw [Memory.read_write h ha, if_pos rfl]

theorem Memory.read_write_other {m : Memory} (h : m.wf = true) {a x : Nat} (hx : x ≠ a) (v : Byte) :
    (m.write a v).read x = m.read x := by
  by_cases ha : a < addressLimit
  · rw [Memory.read_write h ha, if_neg hx]
  · simp [Memory.write, ha]

/-- Every list of writes keeps the canonical form. -/
theorem Memory.wf_writeAll : ∀ (cells : List (Nat × Byte)) {m : Memory}, m.wf = true → (m.writeAll cells).wf = true
  | [], _, h => h
  | (a, v) :: rest, _, h => Memory.wf_writeAll rest (Memory.wf_write h a v)

/-- A list of writes leaves alone every address it does not name. -/
theorem Memory.read_writeAll_other {x : Nat} :
    ∀ (cells : List (Nat × Byte)) {m : Memory}, m.wf = true → x ∉ cells.map Prod.fst →
      (m.writeAll cells).read x = m.read x
  | [], _, _, _ => rfl
  | (a, v) :: rest, m, h, hx => by
    simp only [List.map_cons, List.mem_cons, not_or] at hx
    simp only [Memory.writeAll]
    rw [Memory.read_writeAll_other rest (Memory.wf_write h a v) hx.2, Memory.read_write_other h hx.1]

/-- A list of writes to different addresses gives each its byte. -/
theorem Memory.read_writeAll_mem {x : Nat} {v : Byte} :
    ∀ (cells : List (Nat × Byte)) {m : Memory}, m.wf = true → (cells.map Prod.fst).Nodup → (x, v) ∈ cells →
      x < addressLimit → (m.writeAll cells).read x = v
  | [], _, _, _, hx, _ => by simp at hx
  | (a, w) :: rest, m, h, hnd, hx, hlt => by
    simp only [List.map_cons, List.nodup_cons] at hnd
    simp only [Memory.writeAll]
    rcases List.mem_cons.1 hx with he | hr
    · cases he
      rw [Memory.read_writeAll_other rest (Memory.wf_write h x v) hnd.1, Memory.read_write_same h hlt]
    · exact Memory.read_writeAll_mem rest (Memory.wf_write h a w) hnd.2 hr hlt

theorem Memory.writeAll_append :
    ∀ (xs ys : List (Nat × Byte)) (m : Memory), m.writeAll (xs ++ ys) = (m.writeAll xs).writeAll ys
  | [], _, _ => rfl
  | (a, v) :: rest, ys, m => by
    simp only [List.cons_append, Memory.writeAll]
    exact Memory.writeAll_append rest ys (m.write a v)

/-- A memory's listed bytes are not the unlisted byte. -/
theorem Memory.read_head_ne {lo a : Nat} {v : Byte} {rest : Memory}
    (h : Memory.wfFrom lo ((a, v) :: rest) = true) : Memory.read ((a, v) :: rest) a ≠ Memory.unlisted := by
  rw [Memory.wfFrom_cons] at h
  simpa [Memory.read] using h.2.2.1

theorem Memory.ext_from :
    ∀ {m m' : Memory} {lo : Nat}, Memory.wfFrom lo m = true → Memory.wfFrom lo m' = true →
      (∀ x, m.read x = m'.read x) → m = m'
  | [], [], _, _, _, _ => rfl
  | [], (a, v) :: rest, lo, _, h', he => absurd (he a).symm (Memory.read_head_ne h')
  | (a, v) :: rest, [], lo, h, _, he => absurd (he a) (Memory.read_head_ne h)
  | (a, v) :: rest, (b, w) :: rest', lo, h, h', he => by
    have hh := h
    have hh' := h'
    rw [Memory.wfFrom_cons] at hh hh'
    have hab : a = b := by
      rcases Nat.lt_trichotomy a b with hlt | heq | hgt
      · have h2 : Memory.wfFrom b ((b, w) :: rest') = true := Memory.wfFrom_cons.2 ⟨le_refl b, hh'.2⟩
        exact absurd ((he a).trans (Memory.read_below h2 hlt)) (Memory.read_head_ne h)
      · exact heq
      · have h2 : Memory.wfFrom a ((a, v) :: rest) = true := Memory.wfFrom_cons.2 ⟨le_refl a, hh.2⟩
        exact absurd ((he b).symm.trans (Memory.read_below h2 hgt)) (Memory.read_head_ne h')
    subst hab
    have hv : v = w := by simpa [Memory.read] using he a
    subst hv
    have hr : rest = rest' := by
      refine Memory.ext_from (lo := a + 1) hh.2.2.2 hh'.2.2.2 fun x => ?_
      by_cases hx : x = a
      · subst hx
        rw [Memory.read_below hh.2.2.2 (Nat.lt_succ_self x), Memory.read_below hh'.2.2.2 (Nat.lt_succ_self x)]
      · simpa [Memory.read, hx] using he x
    rw [hr]

/-- Two memories in canonical form that read the same everywhere are the same data. -/
theorem Memory.ext_read {m m' : Memory} (h : m.wf = true) (h' : m'.wf = true) (he : ∀ x, m.read x = m'.read x) :
    m = m' :=
  Memory.ext_from h h' he

/-- The memory of the reset state is in canonical form. -/
theorem Memory.wf_reset (p : Params) : (State.resetWith p).mem.wf = true := rfl

/-! ### Ranges of addresses -/

@[simp] theorem mem_byteRange {base n a : Nat} : a ∈ byteRange base n ↔ base ≤ a ∧ a < base + n := by
  simp only [byteRange, List.mem_map, List.mem_range]
  constructor
  · rintro ⟨i, hi, rfl⟩; omega
  · rintro ⟨h1, h2⟩; exact ⟨a - base, by omega, by omega⟩

/-- No access of a phase fails exactly when every address of it is `MemOK`. -/
theorem failing_eq_nil {p : Params} {addrs : List Nat} :
    failing p addrs = [] ↔ ∀ a ∈ addrs, memOK p a = true := by
  simp [failing]

theorem mem_failing {p : Params} {addrs : List Nat} {a : Nat} :
    a ∈ failing p addrs ↔ a ∈ addrs ∧ memOK p a = false := by
  simp [failing]

theorem memOK_lt {p : Params} {a : Nat} (h : memOK p a = true) : a < addressLimit := by
  simp only [memOK, Bool.and_eq_true, decide_eq_true_eq] at h
  exact h.1.1

theorem freeBytes_addresses (draw base n : Nat) : (freeBytes draw base n).map Prod.fst = byteRange base n := by
  induction n with
  | zero => rfl
  | succ n ih => simp [freeBytes, ih, byteRange, List.range_succ]

/-- The address a draw records is one of those that failed (60_exceptions.md R220). -/
theorem drawAddress_mem (draw : Nat) : ∀ {addrs : List Nat}, addrs ≠ [] → drawAddress draw addrs ∈ addrs
  | [], h => absurd rfl h
  | [a], _ => by simp [drawAddress]
  | a :: b :: rest, _ => by
    rw [drawAddress]
    exact List.getElem_mem _

end Sys2Proof.Machine
end

