-- ==== Sys2Proof/Laws/State.lean ====
section
/-! SUPPORT. One lemma for each field after each named update of the state, true by unfolding once. -/

namespace Sys2Proof.Machine

/-! ### `forgetWorking` -/

@[simp] theorem forgetWorking_cfg (s : State) : (forgetWorking s).cfg = s.cfg := rfl
@[simp] theorem forgetWorking_src (s : State) : (forgetWorking s).src = s.src := rfl
@[simp] theorem forgetWorking_dst (s : State) : (forgetWorking s).dst = s.dst := rfl
@[simp] theorem forgetWorking_len (s : State) : (forgetWorking s).len = s.len := rfl
@[simp] theorem forgetWorking_status (s : State) : (forgetWorking s).status = s.status := rfl
@[simp] theorem forgetWorking_progress (s : State) : (forgetWorking s).progress = s.progress := rfl
@[simp] theorem forgetWorking_errAddr (s : State) : (forgetWorking s).errAddr = s.errAddr := rfl
@[simp] theorem forgetWorking_seq (s : State) : (forgetWorking s).seq = s.seq := rfl
@[simp] theorem forgetWorking_lanes (s : State) : (forgetWorking s).lanes = freeLanes s.draws := rfl
@[simp] theorem forgetWorking_pixel (s : State) : (forgetWorking s).pixel = freePixel s.draws := rfl
@[simp] theorem forgetWorking_mem (s : State) : (forgetWorking s).mem = s.mem := rfl
@[simp] theorem forgetWorking_errorRecord (s : State) : (forgetWorking s).errorRecord = s.errorRecord := rfl
@[simp] theorem forgetWorking_pending (s : State) : (forgetWorking s).pending = s.pending := rfl
@[simp] theorem forgetWorking_busData (s : State) : (forgetWorking s).busData = s.busData := rfl
@[simp] theorem forgetWorking_raced (s : State) : (forgetWorking s).raced = s.raced := rfl
@[simp] theorem forgetWorking_draws (s : State) : (forgetWorking s).draws = s.draws + 1 := rfl

/-! ### `unspecify` -/

@[simp] theorem unspecify_cfg (base n : Nat) (s : State) : (unspecify base n s).cfg = s.cfg := rfl
@[simp] theorem unspecify_src (base n : Nat) (s : State) : (unspecify base n s).src = s.src := rfl
@[simp] theorem unspecify_dst (base n : Nat) (s : State) : (unspecify base n s).dst = s.dst := rfl
@[simp] theorem unspecify_len (base n : Nat) (s : State) : (unspecify base n s).len = s.len := rfl
@[simp] theorem unspecify_status (base n : Nat) (s : State) : (unspecify base n s).status = s.status := rfl
@[simp] theorem unspecify_progress (base n : Nat) (s : State) : (unspecify base n s).progress = s.progress := rfl
@[simp] theorem unspecify_errAddr (base n : Nat) (s : State) : (unspecify base n s).errAddr = s.errAddr := rfl
@[simp] theorem unspecify_seq (base n : Nat) (s : State) : (unspecify base n s).seq = s.seq := rfl
@[simp] theorem unspecify_lanes (base n : Nat) (s : State) : (unspecify base n s).lanes = s.lanes := rfl
@[simp] theorem unspecify_pixel (base n : Nat) (s : State) : (unspecify base n s).pixel = s.pixel := rfl
@[simp] theorem unspecify_mem (base n : Nat) (s : State) : (unspecify base n s).mem = s.mem.writeAll (freeBytes s.draws base n) := rfl
@[simp] theorem unspecify_errorRecord (base n : Nat) (s : State) : (unspecify base n s).errorRecord = s.errorRecord := rfl
@[simp] theorem unspecify_pending (base n : Nat) (s : State) : (unspecify base n s).pending = s.pending := rfl
@[simp] theorem unspecify_busData (base n : Nat) (s : State) : (unspecify base n s).busData = s.busData := rfl
@[simp] theorem unspecify_raced (base n : Nat) (s : State) : (unspecify base n s).raced = s.raced := rfl
@[simp] theorem unspecify_draws (base n : Nat) (s : State) : (unspecify base n s).draws = s.draws + 1 := rfl

/-! ### `fail` -/

@[simp] theorem fail_cfg (e : ErrorCode) (a : Word) (s : State) : (fail e a s).cfg = s.cfg := rfl
@[simp] theorem fail_src (e : ErrorCode) (a : Word) (s : State) : (fail e a s).src = s.src := rfl
@[simp] theorem fail_dst (e : ErrorCode) (a : Word) (s : State) : (fail e a s).dst = s.dst := rfl
@[simp] theorem fail_len (e : ErrorCode) (a : Word) (s : State) : (fail e a s).len = s.len := rfl
@[simp] theorem fail_status (e : ErrorCode) (a : Word) (s : State) : (fail e a s).status = .failed e := rfl
@[simp] theorem fail_progress (e : ErrorCode) (a : Word) (s : State) : (fail e a s).progress = if e = .busError then s.progress else 0 := rfl
@[simp] theorem fail_errAddr (e : ErrorCode) (a : Word) (s : State) : (fail e a s).errAddr = a := rfl
@[simp] theorem fail_seq (e : ErrorCode) (a : Word) (s : State) : (fail e a s).seq = { s.seq with mode := .idle } := rfl
@[simp] theorem fail_lanes (e : ErrorCode) (a : Word) (s : State) : (fail e a s).lanes = freeLanes s.draws := rfl
@[simp] theorem fail_pixel (e : ErrorCode) (a : Word) (s : State) : (fail e a s).pixel = freePixel s.draws := rfl
@[simp] theorem fail_mem (e : ErrorCode) (a : Word) (s : State) : (fail e a s).mem = s.mem := rfl
@[simp] theorem fail_errorRecord (e : ErrorCode) (a : Word) (s : State) : (fail e a s).errorRecord = s.errorRecord ++ [{ code := e, addr := a }] := rfl
@[simp] theorem fail_pending (e : ErrorCode) (a : Word) (s : State) : (fail e a s).pending = s.pending := rfl
@[simp] theorem fail_busData (e : ErrorCode) (a : Word) (s : State) : (fail e a s).busData = s.busData := rfl
@[simp] theorem fail_raced (e : ErrorCode) (a : Word) (s : State) : (fail e a s).raced = s.raced := rfl
@[simp] theorem fail_draws (e : ErrorCode) (a : Word) (s : State) : (fail e a s).draws = s.draws + 1 := rfl

/-! ### `busError` -/

@[simp] theorem busError_cfg (addrs : List Nat) (s : State) : (busError addrs s).cfg = s.cfg := rfl
@[simp] theorem busError_src (addrs : List Nat) (s : State) : (busError addrs s).src = s.src := rfl
@[simp] theorem busError_dst (addrs : List Nat) (s : State) : (busError addrs s).dst = s.dst := rfl
@[simp] theorem busError_len (addrs : List Nat) (s : State) : (busError addrs s).len = s.len := rfl
@[simp] theorem busError_status (addrs : List Nat) (s : State) : (busError addrs s).status = .failed .busError := rfl
@[simp] theorem busError_progress (addrs : List Nat) (s : State) : (busError addrs s).progress = s.progress := rfl
@[simp] theorem busError_errAddr (addrs : List Nat) (s : State) : (busError addrs s).errAddr = BitVec.ofNat 32 (drawAddress s.draws addrs) := rfl
@[simp] theorem busError_seq (addrs : List Nat) (s : State) : (busError addrs s).seq = { s.seq with mode := .idle } := rfl
@[simp] theorem busError_lanes (addrs : List Nat) (s : State) : (busError addrs s).lanes = freeLanes s.draws := rfl
@[simp] theorem busError_pixel (addrs : List Nat) (s : State) : (busError addrs s).pixel = freePixel s.draws := rfl
@[simp] theorem busError_mem (addrs : List Nat) (s : State) : (busError addrs s).mem = s.mem := rfl
@[simp] theorem busError_errorRecord (addrs : List Nat) (s : State) : (busError addrs s).errorRecord = s.errorRecord ++ [{ code := .busError, addr := BitVec.ofNat 32 (drawAddress s.draws addrs) }] := rfl
@[simp] theorem busError_pending (addrs : List Nat) (s : State) : (busError addrs s).pending = s.pending := rfl
@[simp] theorem busError_busData (addrs : List Nat) (s : State) : (busError addrs s).busData = s.busData := rfl
@[simp] theorem busError_raced (addrs : List Nat) (s : State) : (busError addrs s).raced = s.raced := rfl
@[simp] theorem busError_draws (addrs : List Nat) (s : State) : (busError addrs s).draws = s.draws + 1 := rfl

/-! ### `clearReport` -/

@[simp] theorem clearReport_cfg (s : State) : (clearReport s).cfg = s.cfg := rfl
@[simp] theorem clearReport_src (s : State) : (clearReport s).src = s.src := rfl
@[simp] theorem clearReport_dst (s : State) : (clearReport s).dst = s.dst := rfl
@[simp] theorem clearReport_len (s : State) : (clearReport s).len = s.len := rfl
@[simp] theorem clearReport_status (s : State) : (clearReport s).status = .cleared := rfl
@[simp] theorem clearReport_progress (s : State) : (clearReport s).progress = 0 := rfl
@[simp] theorem clearReport_errAddr (s : State) : (clearReport s).errAddr = 0 := rfl
@[simp] theorem clearReport_seq (s : State) : (clearReport s).seq = s.seq := rfl
@[simp] theorem clearReport_lanes (s : State) : (clearReport s).lanes = s.lanes := rfl
@[simp] theorem clearReport_pixel (s : State) : (clearReport s).pixel = s.pixel := rfl
@[simp] theorem clearReport_mem (s : State) : (clearReport s).mem = s.mem := rfl
@[simp] theorem clearReport_errorRecord (s : State) : (clearReport s).errorRecord = s.errorRecord := rfl
@[simp] theorem clearReport_pending (s : State) : (clearReport s).pending = s.pending := rfl
@[simp] theorem clearReport_busData (s : State) : (clearReport s).busData = s.busData := rfl
@[simp] theorem clearReport_raced (s : State) : (clearReport s).raced = s.raced := rfl
@[simp] theorem clearReport_draws (s : State) : (clearReport s).draws = s.draws := rfl

/-! ### `acceptRun` -/

@[simp] theorem acceptRun_cfg (path : Path) (n : Nat) (pf : Bool) (s : State) : (acceptRun path n pf s).cfg = s.cfg := rfl
@[simp] theorem acceptRun_src (path : Path) (n : Nat) (pf : Bool) (s : State) : (acceptRun path n pf s).src = s.src := rfl
@[simp] theorem acceptRun_dst (path : Path) (n : Nat) (pf : Bool) (s : State) : (acceptRun path n pf s).dst = s.dst := rfl
@[simp] theorem acceptRun_len (path : Path) (n : Nat) (pf : Bool) (s : State) : (acceptRun path n pf s).len = s.len := rfl
@[simp] theorem acceptRun_status (path : Path) (n : Nat) (pf : Bool) (s : State) : (acceptRun path n pf s).status = .running := rfl
@[simp] theorem acceptRun_progress (path : Path) (n : Nat) (pf : Bool) (s : State) : (acceptRun path n pf s).progress = 0 := rfl
@[simp] theorem acceptRun_errAddr (path : Path) (n : Nat) (pf : Bool) (s : State) : (acceptRun path n pf s).errAddr = 0 := rfl
@[simp] theorem acceptRun_seq (path : Path) (n : Nat) (pf : Bool) (s : State) : (acceptRun path n pf s).seq = { mode := path.mode, src := s.src, dst := s.dst, len := BitVec.ofNat 32 n, pf := pf, idx := 0 } := rfl
@[simp] theorem acceptRun_lanes (path : Path) (n : Nat) (pf : Bool) (s : State) : (acceptRun path n pf s).lanes = s.lanes := rfl
@[simp] theorem acceptRun_pixel (path : Path) (n : Nat) (pf : Bool) (s : State) : (acceptRun path n pf s).pixel = s.pixel := rfl
@[simp] theorem acceptRun_mem (path : Path) (n : Nat) (pf : Bool) (s : State) : (acceptRun path n pf s).mem = s.mem := rfl
@[simp] theorem acceptRun_errorRecord (path : Path) (n : Nat) (pf : Bool) (s : State) : (acceptRun path n pf s).errorRecord = s.errorRecord := rfl
@[simp] theorem acceptRun_pending (path : Path) (n : Nat) (pf : Bool) (s : State) : (acceptRun path n pf s).pending = s.pending := rfl
@[simp] theorem acceptRun_busData (path : Path) (n : Nat) (pf : Bool) (s : State) : (acceptRun path n pf s).busData = s.busData := rfl
@[simp] theorem acceptRun_raced (path : Path) (n : Nat) (pf : Bool) (s : State) : (acceptRun path n pf s).raced = false := rfl
@[simp] theorem acceptRun_draws (path : Path) (n : Nat) (pf : Bool) (s : State) : (acceptRun path n pf s).draws = s.draws := rfl

/-! ### `complete` -/

@[simp] theorem complete_cfg (s : State) : (complete s).cfg = s.cfg := rfl
@[simp] theorem complete_src (s : State) : (complete s).src = s.src := rfl
@[simp] theorem complete_dst (s : State) : (complete s).dst = s.dst := rfl
@[simp] theorem complete_len (s : State) : (complete s).len = s.len := rfl
@[simp] theorem complete_status (s : State) : (complete s).status = .completed := rfl
@[simp] theorem complete_progress (s : State) : (complete s).progress = s.progress := rfl
@[simp] theorem complete_errAddr (s : State) : (complete s).errAddr = s.errAddr := rfl
@[simp] theorem complete_seq (s : State) : (complete s).seq = { s.seq with mode := .idle } := rfl
@[simp] theorem complete_lanes (s : State) : (complete s).lanes = freeLanes s.draws := rfl
@[simp] theorem complete_pixel (s : State) : (complete s).pixel = freePixel s.draws := rfl
@[simp] theorem complete_mem (s : State) : (complete s).mem = s.mem := rfl
@[simp] theorem complete_errorRecord (s : State) : (complete s).errorRecord = s.errorRecord := rfl
@[simp] theorem complete_pending (s : State) : (complete s).pending = s.pending := rfl
@[simp] theorem complete_busData (s : State) : (complete s).busData = s.busData := rfl
@[simp] theorem complete_raced (s : State) : (complete s).raced = s.raced := rfl
@[simp] theorem complete_draws (s : State) : (complete s).draws = s.draws + 1 := rfl

/-! ### `storeRun` -/

@[simp] theorem storeRun_cfg (cells : List (Nat × Byte)) (s : State) : (storeRun cells s).cfg = s.cfg := rfl
@[simp] theorem storeRun_src (cells : List (Nat × Byte)) (s : State) : (storeRun cells s).src = s.src := rfl
@[simp] theorem storeRun_dst (cells : List (Nat × Byte)) (s : State) : (storeRun cells s).dst = s.dst := rfl
@[simp] theorem storeRun_len (cells : List (Nat × Byte)) (s : State) : (storeRun cells s).len = s.len := rfl
@[simp] theorem storeRun_status (cells : List (Nat × Byte)) (s : State) : (storeRun cells s).status = s.status := rfl
@[simp] theorem storeRun_progress (cells : List (Nat × Byte)) (s : State) : (storeRun cells s).progress = s.progress := rfl
@[simp] theorem storeRun_errAddr (cells : List (Nat × Byte)) (s : State) : (storeRun cells s).errAddr = s.errAddr := rfl
@[simp] theorem storeRun_seq (cells : List (Nat × Byte)) (s : State) : (storeRun cells s).seq = s.seq := rfl
@[simp] theorem storeRun_lanes (cells : List (Nat × Byte)) (s : State) : (storeRun cells s).lanes = s.lanes := rfl
@[simp] theorem storeRun_pixel (cells : List (Nat × Byte)) (s : State) : (storeRun cells s).pixel = s.pixel := rfl
@[simp] theorem storeRun_mem (cells : List (Nat × Byte)) (s : State) : (storeRun cells s).mem = s.mem.writeAll (runBytes s cells) := rfl
@[simp] theorem storeRun_errorRecord (cells : List (Nat × Byte)) (s : State) : (storeRun cells s).errorRecord = s.errorRecord := rfl
@[simp] theorem storeRun_pending (cells : List (Nat × Byte)) (s : State) : (storeRun cells s).pending = s.pending := rfl
@[simp] theorem storeRun_busData (cells : List (Nat × Byte)) (s : State) : (storeRun cells s).busData = s.busData := rfl
@[simp] theorem storeRun_raced (cells : List (Nat × Byte)) (s : State) : (storeRun cells s).raced = s.raced := rfl
@[simp] theorem storeRun_draws (cells : List (Nat × Byte)) (s : State) : (storeRun cells s).draws = if s.raced then s.draws + 1 else s.draws := rfl

/-! ### `advance`: the fields a step's end never changes -/

@[simp] theorem advance_cfg (n : Nat) (s : State) : (advance n s).cfg = s.cfg := by
  unfold advance; dsimp only; split <;> rfl

@[simp] theorem advance_src (n : Nat) (s : State) : (advance n s).src = s.src := by
  unfold advance; dsimp only; split <;> rfl

@[simp] theorem advance_dst (n : Nat) (s : State) : (advance n s).dst = s.dst := by
  unfold advance; dsimp only; split <;> rfl

@[simp] theorem advance_len (n : Nat) (s : State) : (advance n s).len = s.len := by
  unfold advance; dsimp only; split <;> rfl

@[simp] theorem advance_errAddr (n : Nat) (s : State) : (advance n s).errAddr = s.errAddr := by
  unfold advance; dsimp only; split <;> rfl

@[simp] theorem advance_mem (n : Nat) (s : State) : (advance n s).mem = s.mem := by
  unfold advance; dsimp only; split <;> rfl

@[simp] theorem advance_errorRecord (n : Nat) (s : State) : (advance n s).errorRecord = s.errorRecord := by
  unfold advance; dsimp only; split <;> rfl

@[simp] theorem advance_pending (n : Nat) (s : State) : (advance n s).pending = s.pending := by
  unfold advance; dsimp only; split <;> rfl

@[simp] theorem advance_busData (n : Nat) (s : State) : (advance n s).busData = s.busData := by
  unfold advance; dsimp only; split <;> rfl

@[simp] theorem advance_raced (n : Nat) (s : State) : (advance n s).raced = s.raced := by
  unfold advance; dsimp only; split <;> rfl

/-- The end of a step that is not the last one of the run (42_scalar_corrector.md R143). -/
theorem advance_more {n : Nat} {s : State} (h : n * (s.seq.idx.toNat + 1) ≠ s.seq.len.toNat) :
    advance n s = { s with
      seq := { s.seq with idx := BitVec.ofNat 32 (s.seq.idx.toNat + 1) }
      progress := BitVec.ofNat 32 (n * (s.seq.idx.toNat + 1)) } := by
  simp [advance, h]

/-- The end of the last step of a run (42_scalar_corrector.md R144). -/
theorem advance_last {n : Nat} {s : State} (h : n * (s.seq.idx.toNat + 1) = s.seq.len.toNat) :
    advance n s = complete { s with
      seq := { s.seq with idx := BitVec.ofNat 32 (s.seq.idx.toNat + 1) }
      progress := BitVec.ofNat 32 (n * (s.seq.idx.toNat + 1)) } := by
  simp [advance, h]

/-! ### `whenIdle` -/

/-- A status that is not busy lets a command through (44_dispatch_control.md R190). -/
theorem whenIdle_idle {f : State → State} {s : State} (h : s.status.busy = false) :
    whenIdle f s = .next (f s) := by simp [whenIdle, h]

/-- A command written while busy changes nothing (10_state.md R37). -/
theorem whenIdle_busy {f : State → State} {s : State} (h : s.status.busy = true) :
    whenIdle f s = .next s := by simp [whenIdle, h]

end Sys2Proof.Machine
end

