-- ==== Sys2Proof/Laws/Steps.lean ====
section
/-! SUPPORT. What a pixel step and a group step can do, said once: three cases each, and the bytes they write. -/

namespace Sys2Proof.Machine

/-! ### The bytes of a run -/

@[simp] theorem runBytes_addresses (s : State) (cells : List (Nat × Byte)) :
    (runBytes s cells).map Prod.fst = cells.map Prod.fst := by
  unfold runBytes
  split
  · apply List.ext_getElem <;> simp
  · rfl

theorem runBytes_clean {s : State} (h : s.raced = false) (cells : List (Nat × Byte)) : runBytes s cells = cells := by
  simp [runBytes, h]

/-- The writes of a run leave alone every address they do not name. -/
theorem storeRun_read_other {s : State} (h : s.mem.wf = true) {cells : List (Nat × Byte)} {x : Nat}
    (hx : x ∉ cells.map Prod.fst) : (storeRun cells s).mem.read x = s.mem.read x := by
  rw [storeRun_mem]
  exact Memory.read_writeAll_other _ h (by rwa [runBytes_addresses])

/-- With no race, the writes of a run to different addresses give each its byte. -/
theorem storeRun_read_mem {s : State} (h : s.mem.wf = true) (hr : s.raced = false) {cells : List (Nat × Byte)}
    (hnd : (cells.map Prod.fst).Nodup) {x : Nat} {v : Byte} (hx : (x, v) ∈ cells) (hlt : x < addressLimit) :
    (storeRun cells s).mem.read x = v := by
  rw [storeRun_mem, runBytes_clean hr]
  exact Memory.read_writeAll_mem _ h hnd hx hlt

theorem storeRun_wf {s : State} (h : s.mem.wf = true) (cells : List (Nat × Byte)) :
    (storeRun cells s).mem.wf = true := Memory.wf_writeAll _ h

theorem unspecify_wf {s : State} (h : s.mem.wf = true) (base n : Nat) : (unspecify base n s).mem.wf = true :=
  Memory.wf_writeAll _ h

/-- Making a range unspecified leaves alone every byte outside it. -/
theorem unspecify_read_other {s : State} (h : s.mem.wf = true) {base n x : Nat} (hx : x < base ∨ base + n ≤ x) :
    (unspecify base n s).mem.read x = s.mem.read x := by
  rw [unspecify_mem]
  refine Memory.read_writeAll_other _ h ?_
  rw [freeBytes_addresses, mem_byteRange]
  omega

theorem outPosition_lt (m : OutMap) (k : Fin 3) : (outPosition m k).val < 3 := (outPosition m k).isLt

/-- `OUT_MAP` is a permutation (00_scope.md R7). -/
theorem outPosition_injective (m : OutMap) {j k : Fin 3} (h : outPosition m j = outPosition m k) : j = k := by
  revert h; cases m <;> revert j k <;> decide

theorem outPosition_surjective (m : OutMap) (p : Fin 3) : ∃ k, outPosition m k = p := by
  revert p; cases m <;> decide

/-! ### The pixel step (42_scalar_corrector.md R143) -/

/-- What the read phase and the datapath of a step never change: everything but the working registers and the counter of
draws (42_scalar_corrector.md R142, 43_vector_mac_lane.md R161 to R164). -/
structure SameButWorking (s t : State) : Prop where
  cfg : t.cfg = s.cfg
  src : t.src = s.src
  dst : t.dst = s.dst
  len : t.len = s.len
  status : t.status = s.status
  progress : t.progress = s.progress
  errAddr : t.errAddr = s.errAddr
  seq : t.seq = s.seq
  mem : t.mem = s.mem
  errorRecord : t.errorRecord = s.errorRecord
  pending : t.pending = s.pending
  busData : t.busData = s.busData
  raced : t.raced = s.raced

theorem SameButWorking.refl (s : State) : SameButWorking s s := by constructor <;> rfl

theorem SameButWorking.trans {s t u : State} (h : SameButWorking s t) (h' : SameButWorking t u) : SameButWorking s u := by
  constructor
  · rw [h'.cfg, h.cfg]
  · rw [h'.src, h.src]
  · rw [h'.dst, h.dst]
  · rw [h'.len, h.len]
  · rw [h'.status, h.status]
  · rw [h'.progress, h.progress]
  · rw [h'.errAddr, h.errAddr]
  · rw [h'.seq, h.seq]
  · rw [h'.mem, h.mem]
  · rw [h'.errorRecord, h.errorRecord]
  · rw [h'.pending, h.pending]
  · rw [h'.busData, h.busData]
  · rw [h'.raced, h.raced]

theorem pixelCompute_same (s : State) : SameButWorking s (pixelCompute s) := by constructor <;> rfl

theorem pixelWrites_addresses (s : State) (x : Nat) :
    x ∈ (pixelWrites s).map Prod.fst ↔ stepDst 3 s ≤ x ∧ x < stepDst 3 s + 3 := by
  simp only [pixelWrites, List.map_map, List.mem_map, Function.comp]
  constructor
  · rintro ⟨k, _, rfl⟩
    have := outPosition_lt s.cfg.outMap k
    omega
  · rintro ⟨h1, h2⟩
    obtain ⟨k, hk⟩ := outPosition_surjective s.cfg.outMap ⟨x - stepDst 3 s, by omega⟩
    refine ⟨k, by fin_cases k <;> simp, ?_⟩
    rw [hk]
    simp only
    omega

theorem pixelWrites_nodup (s : State) : ((pixelWrites s).map Prod.fst).Nodup := by
  simp only [pixelWrites, List.map_map]
  refine List.Nodup.map_on ?_ (by decide)
  intro j _ k _ h
  apply outPosition_injective s.cfg.outMap
  simp only [Function.comp] at h
  exact Fin.ext (by omega)

/-- What a pixel step computes before it writes (R142, R143). -/
theorem pixelCompute_out (s : State) (k : Fin 3) :
    (pixelCompute s).pixel.out[k] =
      cm (s.mem.read (stepSrc 3 s)) (s.mem.read (stepSrc 3 s + 1)) (s.mem.read (stepSrc 3 s + 2)) k := by
  have := correct_out_get (loadPixel s).pixel k
  simpa [pixelCompute, loadPixel] using this

/-- A pixel step ends in one of three ways (R143; 60_exceptions.md R219). -/
theorem pixelStep_cases (s : State) :
    (failing s.cfg (pixelReads s) ≠ [] ∧ pixelStep s = busError (failing s.cfg (pixelReads s)) s) ∨
    (failing s.cfg (pixelReads s) = [] ∧ failing s.cfg (pixelDestination s) ≠ [] ∧
      pixelStep s = busError (failing s.cfg (pixelDestination s)) (unspecify (stepDst 3 s) 3 (pixelCompute s))) ∨
    (failing s.cfg (pixelReads s) = [] ∧ failing s.cfg (pixelDestination s) = [] ∧
      pixelStep s = advance 3 (storeRun (pixelWrites (pixelCompute s)) (pixelCompute s))) := by
  have hd : pixelDestination (pixelCompute s) = pixelDestination s := rfl
  have hs : stepDst 3 (pixelCompute s) = stepDst 3 s := rfl
  unfold pixelStep
  simp only
  rw [hd, hs]
  cases hr : failing s.cfg (pixelReads s) with
  | cons a more => exact .inl ⟨by simp, rfl⟩
  | nil =>
    cases hw : failing s.cfg (pixelDestination s) with
    | cons a more => exact .inr (.inl ⟨rfl, by simp, rfl⟩)
    | nil => exact .inr (.inr ⟨rfl, rfl, rfl⟩)

/-! ### The group step (43_vector_mac_lane.md R170) -/

@[simp] theorem uPrefetch_eq (s : State) : uPrefetch s = s := by
  unfold uPrefetch prefetchBytes; split <;> rfl

theorem uGather_same (c : Fin 3) (s : State) : SameButWorking s (uGather c s) := by constructor <;> rfl

theorem uSatn_same (k : Fin 3) (s : State) : SameButWorking s (uSatn k s) := by
  unfold uSatn; split <;> constructor <;> rfl

theorem uRow_same (k : Fin 3) (s : State) : SameButWorking s (uRow k s) :=
  SameButWorking.trans (by constructor <;> rfl : SameButWorking s (uVmac k 2 (uVmac k 1 (uVmul k s)))) (uSatn_same k _)

theorem uRow_sample (k : Fin 3) (s : State) : (uRow k s).lanes.sample = s.lanes.sample := by
  unfold uRow uSatn; split <;> rfl

theorem groupCompute_same (s : State) : SameButWorking s (groupCompute s) := by
  unfold groupCompute
  rw [uPrefetch_eq]
  exact (((((uGather_same 0 s).trans (uGather_same 1 _)).trans (uGather_same 2 _)).trans (uRow_same 0 _)).trans
    (uRow_same 1 _)).trans (uRow_same 2 _)

/-- What a group step computes before it writes (R164, R167, R168). -/
theorem groupCompute_narrow (s : State) (k : Fin 3) (l : Fin 8) :
    (groupCompute s).lanes.narrow[k][l] =
      laneOutput s.cfg.laneMode (s.mem.read (stepSrc 24 s + 3 * l)) (s.mem.read (stepSrc 24 s + 3 * l + 1))
        (s.mem.read (stepSrc 24 s + 3 * l + 2)) k := by
  set g := uGather 2 (uGather 1 (uGather 0 s)) with hg
  have hgs : SameButWorking s g := ((uGather_same 0 s).trans (uGather_same 1 _)).trans (uGather_same 2 _)
  have h0 : g.lanes.sample[(0 : Fin 3)][l] = s.mem.read (stepSrc 24 s + 3 * l) := by
    rw [hg, uGather_sample, if_neg (by decide), uGather_sample, if_neg (by decide), uGather_sample, if_pos rfl]
    rfl
  have h1 : g.lanes.sample[(1 : Fin 3)][l] = s.mem.read (stepSrc 24 s + 3 * l + 1) := by
    rw [hg, uGather_sample, if_neg (by decide), uGather_sample, if_pos rfl]
    rfl
  have h2 : g.lanes.sample[(2 : Fin 3)][l] = s.mem.read (stepSrc 24 s + 3 * l + 2) := by
    rw [hg, uGather_sample, if_pos rfl]
    rfl
  simp only [Fin.getElem_fin, Fin.val_zero, Fin.val_one, Fin.val_two] at h0 h1 h2
  have e : groupCompute s = uRow 2 (uRow 1 (uRow 0 g)) := by unfold groupCompute; rw [uPrefetch_eq]
  rw [e, uRow_narrow, uRow_narrow, uRow_narrow]
  simp only [uRow_sample, (uRow_same _ _).cfg, hgs.cfg, Fin.getElem_fin, h0, h1, h2]
  fin_cases k <;> simp

theorem scatterWrites_address {k : Fin 3} {s : State} {x : Nat} :
    x ∈ (scatterWrites k s).map Prod.fst ↔ ∃ l : Fin 8, x = stepDst 24 s + 3 * l + outPosition s.cfg.outMap k := by
  simp only [scatterWrites, List.map_map, List.mem_map, Function.comp]
  constructor
  · rintro ⟨l, _, rfl⟩; exact ⟨l, rfl⟩
  · rintro ⟨l, rfl⟩; exact ⟨l, by fin_cases l <;> simp, rfl⟩

theorem scatterWrites_nodup (k : Fin 3) (s : State) : ((scatterWrites k s).map Prod.fst).Nodup := by
  simp only [scatterWrites, List.map_map]
  refine List.Nodup.map_on ?_ (by decide)
  intro i _ j _ h
  simp only [Function.comp] at h
  exact Fin.ext (by omega)

theorem scatterWrites_mem (k : Fin 3) (s : State) (l : Fin 8) :
    (stepDst 24 s + 3 * l + outPosition s.cfg.outMap k, s.lanes.narrow[k][l]) ∈ scatterWrites k s := by
  simp only [scatterWrites, List.mem_map]
  exact ⟨l, by fin_cases l <;> simp, rfl⟩

theorem uScatter_wf {s : State} (h : s.mem.wf = true) (k : Fin 3) : (uScatter k s).mem.wf = true := storeRun_wf h _

/-- One scatter changes only the positions of its own row. -/
theorem uScatter_read_other {s : State} (h : s.mem.wf = true) {k : Fin 3} {x : Nat}
    (hx : ∀ l : Fin 8, x ≠ stepDst 24 s + 3 * l + outPosition s.cfg.outMap k) :
    (uScatter k s).mem.read x = s.mem.read x := by
  refine storeRun_read_other h fun hmem => ?_
  obtain ⟨l, hl⟩ := scatterWrites_address.1 hmem
  exact hx l hl

theorem uScatter_read {s : State} (h : s.mem.wf = true) (hr : s.raced = false) (k : Fin 3) (l : Fin 8)
    (hlt : stepDst 24 s + 24 ≤ addressLimit) :
    (uScatter k s).mem.read (stepDst 24 s + 3 * l + outPosition s.cfg.outMap k) = s.lanes.narrow[k][l] := by
  refine storeRun_read_mem h hr (scatterWrites_nodup k s) (scatterWrites_mem k s l) ?_
  have := outPosition_lt s.cfg.outMap k
  omega

theorem groupScatter_wf {s : State} (h : s.mem.wf = true) : (groupScatter s).mem.wf = true :=
  uScatter_wf (uScatter_wf (uScatter_wf h 0) 1) 2

/-- The scatters of a group change only the group's 24 destination bytes. -/
theorem groupScatter_read_other {s : State} (h : s.mem.wf = true) {x : Nat}
    (hx : x < stepDst 24 s ∨ stepDst 24 s + 24 ≤ x) : (groupScatter s).mem.read x = s.mem.read x := by
  unfold groupScatter
  have hne : ∀ (k : Fin 3) (l : Fin 8), x ≠ stepDst 24 s + 3 * l + outPosition s.cfg.outMap k := by
    intro k l
    have := outPosition_lt s.cfg.outMap k
    omega
  rw [uScatter_read_other (uScatter_wf (uScatter_wf h 0) 1) (hne 2),
    uScatter_read_other (uScatter_wf h 0) (hne 1), uScatter_read_other h (hne 0)]

/-- The scatters of a group leave each output at its place (R165). -/
theorem groupScatter_read {s : State} (h : s.mem.wf = true) (hr : s.raced = false)
    (hlt : stepDst 24 s + 24 ≤ addressLimit) (k : Fin 3) (l : Fin 8) :
    (groupScatter s).mem.read (stepDst 24 s + 3 * l + outPosition s.cfg.outMap k) = s.lanes.narrow[k][l] := by
  have hne : ∀ j : Fin 3, j ≠ k → ∀ i : Fin 8,
      stepDst 24 s + 3 * l + outPosition s.cfg.outMap k ≠ stepDst 24 s + 3 * i + outPosition s.cfg.outMap j := by
    intro j hjk i he
    have h1 := outPosition_lt s.cfg.outMap k
    have h2 := outPosition_lt s.cfg.outMap j
    exact hjk (outPosition_injective s.cfg.outMap (Fin.ext (by omega)))
  unfold groupScatter
  have hk : k = 0 ∨ k = 1 ∨ k = 2 := by fin_cases k <;> simp
  rcases hk with rfl | rfl | rfl
  · rw [uScatter_read_other (uScatter_wf (uScatter_wf h 0) 1) (hne 2 (by decide)),
      uScatter_read_other (uScatter_wf h 0) (hne 1 (by decide))]
    exact uScatter_read h hr 0 l hlt
  · rw [uScatter_read_other (uScatter_wf (uScatter_wf h 0) 1) (hne 2 (by decide))]
    exact uScatter_read (s := uScatter 0 s) (uScatter_wf h 0) hr 1 l hlt
  · exact uScatter_read (s := uScatter 1 (uScatter 0 s)) (uScatter_wf (uScatter_wf h 0) 1) hr 2 l hlt

/-- A group step ends in one of three ways (R170; 60_exceptions.md R219). -/
theorem groupStep_cases (s : State) :
    (failing s.cfg (groupReads s) ≠ [] ∧ groupStep s = busError (failing s.cfg (groupReads s)) s) ∨
    (failing s.cfg (groupReads s) = [] ∧ failing s.cfg (groupDestination s) ≠ [] ∧
      groupStep s = busError (failing s.cfg (groupDestination s)) (unspecify (stepDst 24 s) 24 (groupCompute s))) ∨
    (failing s.cfg (groupReads s) = [] ∧ failing s.cfg (groupDestination s) = [] ∧
      groupStep s = advance 24 (groupScatter (groupCompute s))) := by
  have hs : stepDst 24 (groupCompute s) = stepDst 24 s := by unfold stepDst; rw [(groupCompute_same s).seq]
  have hd : groupDestination (groupCompute s) = groupDestination s := by unfold groupDestination; rw [hs]
  unfold groupStep
  simp only
  rw [hd, hs]
  cases hr : failing s.cfg (groupReads s) with
  | cons a more => exact .inl ⟨by simp, rfl⟩
  | nil =>
    cases hw : failing s.cfg (groupDestination s) with
    | cons a more => exact .inr (.inl ⟨rfl, by simp, rfl⟩)
    | nil => exact .inr (.inr ⟨rfl, rfl, rfl⟩)

/-! ### Both paths -/

/-- What the write phase of a step of `path` leaves: everything but the working registers, the memory and the counter of
draws is as before; a memory in canonical form keeps it and changes only in the step's destination bytes; with no race each output
of the step stands at its place. -/
structure StepEffect (path : Path) (s w : State) : Prop where
  cfg : w.cfg = s.cfg
  src : w.src = s.src
  dst : w.dst = s.dst
  len : w.len = s.len
  status : w.status = s.status
  progress : w.progress = s.progress
  errAddr : w.errAddr = s.errAddr
  seq : w.seq = s.seq
  errorRecord : w.errorRecord = s.errorRecord
  pending : w.pending = s.pending
  busData : w.busData = s.busData
  raced : w.raced = s.raced
  wf : s.mem.wf = true → w.mem.wf = true
  outside : s.mem.wf = true → ∀ x, x < stepDst path.granularity s ∨ stepDst path.granularity s + path.granularity ≤ x →
    w.mem.read x = s.mem.read x
  outputs : s.mem.wf = true → s.raced = false → stepDst path.granularity s + path.granularity ≤ addressLimit →
    ∀ i, 3 * i < path.granularity → ∀ k : Fin 3,
      w.mem.read (stepDst path.granularity s + 3 * i + outPosition s.cfg.outMap k) =
        pixelOutput path s.cfg.laneMode s.mem (stepSrc path.granularity s + 3 * i) k

theorem pixel_effect (s : State) :
    StepEffect .scalar s (storeRun (pixelWrites (pixelCompute s)) (pixelCompute s)) := by
  constructor <;> try rfl
  · exact fun h => storeRun_wf (s := pixelCompute s) h _
  · intro h x hx
    have hm : (pixelCompute s).mem.wf = true := h
    refine (storeRun_read_other hm fun hmem => ?_).trans rfl
    rw [pixelWrites_addresses] at hmem
    have : stepDst 3 (pixelCompute s) = stepDst 3 s := rfl
    simp only [Path.granularity] at hx
    omega
  · intro h hr hlt i hi k
    have hm : (pixelCompute s).mem.wf = true := h
    have hi0 : i = 0 := by simp only [Path.granularity] at hi; omega
    subst hi0
    have hk := outPosition_lt s.cfg.outMap k
    simp only [Path.granularity] at hlt
    have hout := pixelCompute_out s k
    refine storeRun_read_mem hm hr (pixelWrites_nodup _) ?_ (by simp only [Path.granularity]; omega)
    simp only [pixelOutput, Path.granularity]
    simp only [Nat.mul_zero, Nat.add_zero]
    rw [← hout]
    simp only [pixelWrites, List.mem_map]
    exact ⟨k, by fin_cases k <;> simp, rfl⟩

theorem uScatter_raced (k : Fin 3) (s : State) : (uScatter k s).raced = s.raced := rfl

theorem group_effect (s : State) : StepEffect .bulk s (groupScatter (groupCompute s)) := by
  have hc := groupCompute_same s
  have hm : s.mem.wf = true → (groupCompute s).mem.wf = true := fun h => by rw [hc.mem]; exact h
  have hs : stepDst 24 (groupCompute s) = stepDst 24 s := by unfold stepDst; rw [hc.seq]
  have hn := groupCompute_narrow s
  generalize groupCompute s = t at hc hm hs hn
  constructor
  · exact hc.cfg
  · exact hc.src
  · exact hc.dst
  · exact hc.len
  · exact hc.status
  · exact hc.progress
  · exact hc.errAddr
  · exact hc.seq
  · exact hc.errorRecord
  · exact hc.pending
  · exact hc.busData
  · exact hc.raced
  · exact fun h => groupScatter_wf (hm h)
  · intro h x hx
    simp only [Path.granularity] at hx
    rw [groupScatter_read_other (hm h) (by omega), hc.mem]
  · intro h hr hlt i hi k
    simp only [Path.granularity] at hlt hi ⊢
    have := groupScatter_read (hm h) (by rw [hc.raced]; exact hr) (by omega) k ⟨i, by omega⟩
    rw [hs, hc.cfg] at this
    rw [this, hn]
    rfl

/-- A turn of the unit in a run of `path` ends in one of three ways (42_scalar_corrector.md R143, 43_vector_mac_lane.md
R170, 60_exceptions.md R219): a failing read, a failing write, or the step's effect and its end. -/
theorem unitStep_cases {path : Path} {s : State} (hmode : s.seq.mode = path.mode) :
    let n := path.granularity
    let reads := failing s.cfg (byteRange (stepSrc n s) n)
    let writes := failing s.cfg (byteRange (stepDst n s) n)
    (reads ≠ [] ∧ unitStep s = busError reads s) ∨
    (reads = [] ∧ writes ≠ [] ∧ ∃ u, SameButWorking s u ∧ unitStep s = busError writes (unspecify (stepDst n s) n u)) ∨
    (reads = [] ∧ writes = [] ∧ ∃ w, StepEffect path s w ∧ unitStep s = advance n w) := by
  cases path with
  | scalar =>
    have he : unitStep s = pixelStep s := by unfold unitStep; rw [hmode]; rfl
    rw [he]
    rcases pixelStep_cases s with h1 | ⟨h1, h2, h3⟩ | ⟨h1, h2, h3⟩
    · exact .inl h1
    · exact .inr (.inl ⟨h1, h2, _, pixelCompute_same s, h3⟩)
    · exact .inr (.inr ⟨h1, h2, _, pixel_effect s, h3⟩)
  | bulk =>
    have he : unitStep s = groupStep s := by unfold unitStep; rw [hmode]; rfl
    rw [he]
    rcases groupStep_cases s with h1 | ⟨h1, h2, h3⟩ | ⟨h1, h2, h3⟩
    · exact .inl h1
    · exact .inr (.inl ⟨h1, h2, _, groupCompute_same s, h3⟩)
    · exact .inr (.inr ⟨h1, h2, _, group_effect s, h3⟩)

/-! ### Acceptance (44_dispatch_control.md R190) -/

/-- When the precondition checks pass (60_exceptions.md R213, R214). -/
theorem rejection_eq_none {path : Path} {n s d : Nat} :
    rejection path n s d = none ↔
      n ≠ 0 ∧ n % path.granularity = 0 ∧ s ≠ 0 ∧ d ≠ 0 ∧ s + n ≤ addressLimit ∧ d + n ≤ addressLimit ∧
        (s = d ∨ s + n ≤ d ∨ d + n ≤ s) := by
  unfold rejection lengthInvalid bufferNull bufferWraps bufferOverlaps
  simp only [Bool.or_eq_true, Bool.and_eq_true, beq_iff_eq, bne_iff_ne, decide_eq_true_eq, ne_eq]
  constructor
  · intro h
    split at h
    · cases h
    · split at h
      · cases h
      · split at h
        · cases h
        · split at h
          · cases h
          · omega
  · intro h
    rw [if_neg (by omega), if_neg (by omega), if_neg (by omega), if_neg (by omega)]

/-- A rejection is InvalidLength or InvalidBuffer (60_exceptions.md R217). -/
theorem rejection_code {path : Path} {n s d : Nat} {e : ErrorCode} (h : rejection path n s d = some e) :
    e = .invalidLength ∨ e = .invalidBuffer := by
  unfold rejection at h
  split at h
  · simp_all
  · split at h
    · simp_all
    · split at h
      · simp_all
      · split at h <;> simp_all

/-- A request for a run is accepted or recorded as an error (R190). -/
theorem requestRun_cases (r : RunRequest) (s : State) :
    (rejection r.path r.length s.src.toNat s.dst.toNat = none ∧ requestRun r s = acceptRun r.path r.length r.pf s) ∨
    (∃ e, rejection r.path r.length s.src.toNat s.dst.toNat = some e ∧ (e = .invalidLength ∨ e = .invalidBuffer) ∧
      requestRun r s = fail e 0 s) := by
  unfold requestRun
  cases h : rejection r.path r.length s.src.toNat s.dst.toNat with
  | none => exact .inl ⟨rfl, rfl⟩
  | some e => exact .inr ⟨e, rfl, rejection_code h, rfl⟩

end Sys2Proof.Machine
end

