-- ==== Sys2Proof/Laws/Invariant.lean ====
section
/-! SUPPORT. What each shared operation does to the invariant. -/

namespace Sys2Proof.Machine

theorem Path.granularity_pos (p : Path) : 0 < p.granularity := by cases p <;> decide

theorem Path.mode_ne_idle (p : Path) : p.mode ≠ .idle := by cases p <;> decide

theorem Path.mode_injective {p q : Path} (h : p.mode = q.mode) : p = q := by
  revert h; cases p <;> cases q <;> decide

/-- In a run the sequencer is not idle; in every other legal state it is. -/
theorem LegalState.busy_cases {s : State} (h : LegalState s) :
    (s.status.busy = true ∧ BusyInv s) ∨ (s.status.busy = false ∧ s.seq.mode = .idle) := by
  rcases h.report with h | h | h | ⟨e, h⟩
  · exact .inr ⟨by rw [h.status]; rfl, h.mode⟩
  · exact .inl ⟨by rw [h.1]; rfl, h⟩
  · exact .inr ⟨by rw [h.status]; rfl, h.mode⟩
  · exact .inr ⟨by rw [h.status]; rfl, h.mode⟩

theorem LegalState.idle_mode {s : State} (h : LegalState s) (hb : s.status.busy = false) : s.seq.mode = .idle := by
  rcases h.busy_cases with ⟨h1, _⟩ | ⟨_, h2⟩
  · simp [hb] at h1
  · exact h2

theorem LegalState.busyInv {s : State} (h : LegalState s) (hb : s.status.busy = true) : BusyInv s := by
  rcases h.busy_cases with ⟨_, h1⟩ | ⟨h2, _⟩
  · exact h1
  · simp [hb] at h2

/-- The invariant rests only on these fields: a change of any other keeps it. -/
theorem LegalState.congr {s t : State} (h : LegalState s) (hm : t.mem.wf = true) (h1 : t.cfg = s.cfg) (h2 : t.src = s.src)
    (h3 : t.dst = s.dst) (h4 : t.status = s.status) (h5 : t.progress = s.progress) (h6 : t.errAddr = s.errAddr)
    (h7 : t.seq = s.seq) : LegalState t := by
  refine ⟨hm, ?_⟩
  rcases h.report with h | ⟨hs, p, h⟩ | h | ⟨e, h⟩
  · exact .inl ⟨by rw [h4, h.status], by rw [h7, h.mode], by rw [h5, h.progress], by rw [h6, h.errAddr]⟩
  · refine .inr (.inl ⟨by rw [h4, hs], p, ?_⟩)
    constructor <;> simp only [h2, h3, h5, h6, h7]
    exacts [h.mode, h.src, h.dst, h.srcNotNull, h.dstNotNull, h.lengthPositive, h.lengthMultiple, h.srcFits, h.dstFits,
      h.noOverlap, h.indexBound, h.progress, h.errAddr]
  · exact .inr (.inr (.inl ⟨by rw [h4, h.status], by rw [h7, h.mode], by rw [h5, h7, h.progress], by rw [h6, h.errAddr]⟩))
  · exact .inr (.inr (.inr ⟨e, by rw [h4, h.status], by rw [h7, h.mode], by rw [h5, h6]; exact h.atAcceptance,
      by rw [h1, h5, h6, h7]; exact h.duringRun⟩))

/-- While idle, SRC, DST and LEN are free to change. -/
theorem LegalState.congr_idle {s t : State} (h : LegalState s) (hb : s.status.busy = false) (hm : t.mem = s.mem) (h1 : t.cfg = s.cfg)
    (h4 : t.status = s.status) (h5 : t.progress = s.progress) (h6 : t.errAddr = s.errAddr)
    (h7 : t.seq = s.seq) : LegalState t := by
  refine ⟨by rw [hm]; exact h.memory, ?_⟩
  rcases h.report with h | ⟨hs, _⟩ | h | ⟨e, h⟩
  · exact .inl ⟨by rw [h4, h.status], by rw [h7, h.mode], by rw [h5, h.progress], by rw [h6, h.errAddr]⟩
  · rw [hs] at hb; cases hb
  · exact .inr (.inr (.inl ⟨by rw [h4, h.status], by rw [h7, h.mode], by rw [h5, h7, h.progress], by rw [h6, h.errAddr]⟩))
  · exact .inr (.inr (.inr ⟨e, by rw [h4, h.status], by rw [h7, h.mode], by rw [h5, h6]; exact h.atAcceptance,
      by rw [h1, h5, h6, h7]; exact h.duringRun⟩))

/-- An error at acceptance leaves a legal failed state (60_exceptions.md R216). -/
theorem fail_inv {s : State} (hm : s.mem.wf = true) {e : ErrorCode} (he : e ≠ .busError) : LegalState (fail e 0 s) :=
  ⟨hm, .inr (.inr (.inr ⟨e, rfl, rfl, fun _ => ⟨by simp [he], rfl⟩, fun h => absurd h he⟩))⟩

/-- What a failed command leaves, field by field (60_exceptions.md R216, R218). -/
theorem fail_rejected {s : State} {e : ErrorCode} (he : e ≠ .busError) : RejectedWith e s (fail e 0 s) := by
  constructor <;> simp [Status.failed, he]

/-- An accepted run starts in a legal running state (44_dispatch_control.md R190). -/
theorem acceptRun_inv {s : State} (hm : s.mem.wf = true) {path : Path} {n : Nat} {pf : Bool}
    (h : rejection path n s.src.toNat s.dst.toNat = none) : LegalState (acceptRun path n pf s) := by
  obtain ⟨h1, h2, h3, h4, h5, h6, h7⟩ := rejection_eq_none.1 h
  have hn : (BitVec.ofNat 32 n).toNat = n := by
    rw [BitVec.toNat_ofNat]; apply Nat.mod_eq_of_lt; unfold addressLimit at h5; omega
  refine ⟨hm, .inr (.inl ⟨rfl, path, ?_⟩)⟩
  constructor <;> simp only [acceptRun_seq, acceptRun_src, acceptRun_dst, acceptRun_progress, acceptRun_errAddr, hn]
  · omega
  · omega
  · omega
  · exact h2
  · exact h5
  · exact h6
  · rcases h7 with h7 | h7
    · exact .inl (BitVec.eq_of_toNat_eq h7)
    · exact .inr h7
  · simp; omega
  · simp

theorem requestRun_inv {s : State} (hm : s.mem.wf = true) (r : RunRequest) : LegalState (requestRun r s) := by
  rcases requestRun_cases r s with ⟨h, he⟩ | ⟨e, _, hc, he⟩
  · rw [he]; exact acceptRun_inv hm h
  · rw [he]; exact fail_inv hm (by rcases hc with rfl | rfl <;> decide)

/-- A BusError in a run leaves a legal failed state whose ERR_ADDR did not respond (60_exceptions.md R216, R220). -/
theorem busError_inv {s t : State} {path : Path} (h : RunInv path s) (hm : t.mem.wf = true) (hc : t.cfg = s.cfg)
    (hp : t.progress = s.progress) (hl : t.seq.len = s.seq.len) {addrs : List Nat} (hne : addrs ≠ [])
    (hf : ∀ a ∈ addrs, a < addressLimit ∧ memOK s.cfg a = false) : LegalState (busError addrs t) := by
  refine ⟨hm, .inr (.inr (.inr ⟨.busError, rfl, rfl, fun hx => absurd rfl hx, fun _ => ?_⟩))⟩
  obtain ⟨h1, h2⟩ := hf _ (drawAddress_mem t.draws hne)
  simp only [busError_cfg, busError_errAddr, busError_progress, busError_seq, hc, hp, hl]
  refine ⟨?_, by rw [h.progress]; exact h.indexBound⟩
  rw [BitVec.toNat_ofNat, Nat.mod_eq_of_lt (by simpa [addressLimit] using h1)]
  exact h2

/-- The addresses of the current step lie in the ranges of its run (20_memory.md R61, R68). -/
theorem RunInv.step_in_range {path : Path} {s : State} (h : RunInv path s) :
    path.granularity * (s.seq.idx.toNat + 1) ≤ s.seq.len.toNat := by
  have h1 := h.indexBound
  have h2 := h.lengthMultiple
  obtain ⟨q, hq⟩ := Nat.dvd_of_mod_eq_zero h2
  have hg := path.granularity_pos
  rw [hq] at h1 ⊢
  exact Nat.mul_le_mul_left _ (Nat.lt_of_mul_lt_mul_left h1)

theorem RunInv.src_step_fits {path : Path} {s : State} (h : RunInv path s) :
    stepSrc path.granularity s + path.granularity ≤ s.seq.src.toNat + s.seq.len.toNat := by
  have := h.step_in_range
  unfold stepSrc
  rw [Nat.mul_add] at this
  omega

theorem RunInv.dst_step_fits {path : Path} {s : State} (h : RunInv path s) :
    stepDst path.granularity s + path.granularity ≤ s.seq.dst.toNat + s.seq.len.toNat := by
  have := h.step_in_range
  unfold stepDst
  rw [Nat.mul_add] at this
  omega

/-- The next index and PROGRESS fit their registers. -/
theorem RunInv.next_fits {path : Path} {s : State} (h : RunInv path s) :
    (BitVec.ofNat 32 (s.seq.idx.toNat + 1)).toNat = s.seq.idx.toNat + 1 ∧
    (BitVec.ofNat 32 (path.granularity * (s.seq.idx.toNat + 1))).toNat = path.granularity * (s.seq.idx.toNat + 1) := by
  have h1 := h.step_in_range
  have h2 := s.seq.len.isLt
  have h3 : s.seq.idx.toNat + 1 ≤ path.granularity * (s.seq.idx.toNat + 1) :=
    Nat.le_mul_of_pos_left _ path.granularity_pos
  constructor <;> rw [BitVec.toNat_ofNat] <;> apply Nat.mod_eq_of_lt <;> omega

/-- The end of a step keeps the invariant: the run goes on or is complete (42_scalar_corrector.md R143, R144). -/
theorem advance_inv {path : Path} {s t : State} (hs : s.status = .running) (h : RunInv path s)
    (hm : t.mem.wf = true) (h2 : t.src = s.src)
    (h3 : t.dst = s.dst) (h4 : t.status = s.status) (h6 : t.errAddr = s.errAddr) (h7 : t.seq = s.seq) :
    LegalState (advance path.granularity t) := by
  obtain ⟨f1, f2⟩ := h.next_fits
  have f3 := h.step_in_range
  by_cases hl : path.granularity * (t.seq.idx.toNat + 1) = t.seq.len.toNat
  · rw [advance_last hl]
    refine ⟨hm, .inr (.inr (.inl ⟨rfl, rfl, ?_, by simp [h6, h.errAddr]⟩))⟩
    simp only [complete_progress, complete_seq, hl]
    exact BitVec.eq_of_toNat_eq (by simp)
  · rw [advance_more hl]
    rw [h7] at hl
    refine ⟨hm, .inr (.inl ⟨by simp [h4, hs], path, ?_⟩)⟩
    constructor <;> simp only [h2, h3, h6, h7, f1, f2]
    exacts [h.mode, h.src, h.dst, h.srcNotNull, h.dstNotNull, h.lengthPositive, h.lengthMultiple, h.srcFits, h.dstFits,
      h.noOverlap, by omega, h.errAddr]

end Sys2Proof.Machine
end

