-- ==== Sys2Proof/Laws/PerInstr.lean ====
section
/-! SUPPORT. Statements made for every command, one lemma for each constructor of Instr. -/

namespace Sys2Proof.Laws.Encoding

/-- The command is well-formed and its word keeps the format of 30_encoding.md R82 to R85: RSV is 0, OP is a defined
operation, PF is set only with BULK and WB, and the four bytes of the word, least significant first, are read back as the
word with nothing left over (20_memory.md R66, 30_encoding.md R90). -/
def Statement (i : Instr) : Prop :=
  i.wellFormed = true ∧
  (encode i).extractLsb' 5 27 = 0 ∧
  ((encode i).extractLsb' 0 4).toNat ≤ 4 ∧
  ((encode i).extractLsb' 4 1 = 1 → (encode i).extractLsb' 0 4 = 2 ∨ (encode i).extractLsb' 0 4 = 3) ∧
  decodeBytes [byteOfNat (encode i).toNat 0, byteOfNat (encode i).toNat 1, byteOfNat (encode i).toNat 2,
    byteOfNat (encode i).toNat 3] = some (decode (encode i), [])

theorem nop : Statement .nop := by unfold Statement; decide
theorem scalar : Statement .scalar := by unfold Statement; decide
theorem bulk : Statement .bulk := by unfold Statement; decide
theorem bulkPf : Statement .bulkPf := by unfold Statement; decide
theorem wb : Statement .wb := by unfold Statement; decide
theorem wbPf : Statement .wbPf := by unfold Statement; decide
theorem clear : Statement .clear := by unfold Statement; decide

end Sys2Proof.Laws.Encoding
end

