-- ==== Sys2Proof/Laws/Step.lean ====
section
/-! SUPPORT. What a step does, event by event; runs of several steps; and the shape every command that starts a run has. -/

namespace Sys2Proof.Machine

/-- With nothing pending a step is the unit's turn. -/
theorem step_unit {s : State} (h : s.pending = []) : step s = .next (unitStep s) := by
  unfold step; rw [h]

/-- With an event pending a step is that event on the state it has been taken from. -/
theorem step_event {s : State} {e : Event} {rest : List Event} (h : s.pending = e :: rest) :
    step s = handle e { s with pending := rest } := by
  unfold step; rw [h]

/-- An idle unit's turn changes nothing. -/
theorem unitStep_idle {s : State} (h : s.seq.mode = .idle) : unitStep s = s := by
  unfold unitStep; rw [h]

/-- A run of steps begins with one step. -/
theorem run_succ {s t : State} {n : Nat} (h : step s = .next t) : core.run (n + 1) s = core.run n t := by
  have h' : core.step s = .next t := h
  simp only [Host.Core.run, h']

theorem run_zero (s : State) : core.run 0 s = .next s := rfl

/-- A command that starts a run asks for its path and length (44_dispatch_control.md R190, R194). -/
theorem exec_run {s : State} {i : Instr} {path : Path} {n : Nat} (h : s.status.busy = false)
    (hr : runOf i s = some (path, n)) (hv : (i = .bulk ∨ i = .bulkPf) → s.cfg.vecPresent = true) :
    ∃ pf, exec i s = .next (requestRun ⟨path, n, pf⟩ s) := by
  cases i <;> simp only [runOf, Option.some.injEq, Prod.mk.injEq, reduceCtorEq] at hr
  · obtain ⟨rfl, rfl⟩ := hr
    exact ⟨false, whenIdle_idle h⟩
  · obtain ⟨rfl, rfl⟩ := hr
    exact ⟨false, by simp [exec, execBulk, whenIdle, h, requestBulk, hv]⟩
  · obtain ⟨rfl, rfl⟩ := hr
    exact ⟨true, by simp [exec, execBulkPf, whenIdle, h, requestBulk, hv]⟩
  · obtain ⟨rfl, rfl⟩ := hr
    exact ⟨false, by cases hv : s.cfg.vecPresent <;> simp [exec, execWb, whenIdle, h, wbSelect, hv]⟩
  · obtain ⟨rfl, rfl⟩ := hr
    cases hv : s.cfg.vecPresent
    · exact ⟨false, by simp [exec, execWbPf, whenIdle, h, wbSelect, hv]⟩
    · exact ⟨true, by simp [exec, execWbPf, whenIdle, h, wbSelect, hv]⟩

/-- The operands an acceptance statement asks for pass the checks (60_exceptions.md R213, R214). -/
theorem Acceptable.rejection_none {path : Path} {n : Nat} {s : State} (h : Acceptable path n s) :
    rejection path n s.src.toNat s.dst.toNat = none := by
  have h1 : s.src.toNat ≠ 0 := fun h0 => h.srcNotNull (BitVec.eq_of_toNat_eq (by simpa using h0))
  have h2 : s.dst.toNat ≠ 0 := fun h0 => h.dstNotNull (BitVec.eq_of_toNat_eq (by simpa using h0))
  have h3 : s.src.toNat = s.dst.toNat ∨ s.src.toNat + n ≤ s.dst.toNat ∨ s.dst.toNat + n ≤ s.src.toNat :=
    h.noPartialOverlap.imp_left fun e => by rw [e]
  exact rejection_eq_none.2 ⟨Nat.pos_iff_ne_zero.1 h.positive, h.multiple, h1, h2, h.srcFits, h.dstFits, h3⟩

/-- One turn of the unit keeps a legal state legal. -/
theorem unitStep_legal {s : State} (hi : LegalState s) : LegalState (unitStep s) := by
  rcases hi.busy_cases with ⟨hb, hs, path, h⟩ | ⟨_, hm⟩
  · have f1 := h.src_step_fits
    have f2 := h.dst_step_fits
    have f3 := h.srcFits
    have f4 := h.dstFits
    rcases unitStep_cases h.mode with ⟨h0, he⟩ | ⟨_, h0, u, hu, he⟩ | ⟨_, _, w, hw, he⟩
    · rw [he]
      refine busError_inv h hi.memory rfl rfl rfl h0 fun a ha => ?_
      rw [mem_failing, mem_byteRange] at ha
      exact ⟨by omega, ha.2⟩
    · rw [he]
      refine busError_inv h (unspecify_wf (by rw [hu.mem]; exact hi.memory) _ _) hu.cfg hu.progress
        (by simp [hu.seq]) h0 fun a ha => ?_
      rw [mem_failing, mem_byteRange] at ha
      exact ⟨by omega, ha.2⟩
    · rw [he]
      exact advance_inv hs h (hw.wf hi.memory) hw.src hw.dst hw.status hw.errAddr hw.seq
  · rw [unitStep_idle hm]; exact hi

/-- Some access of a phase fails exactly when its list of failing addresses is not empty. -/
theorem failing_range_ne_nil {p : Params} {base n : Nat} :
    failing p (byteRange base n) ≠ [] ↔ ∃ j, j < n ∧ memOK p (base + j) = false := by
  constructor
  · intro hne
    obtain ⟨a, ha⟩ := List.exists_mem_of_ne_nil _ hne
    rw [mem_failing, mem_byteRange] at ha
    obtain ⟨⟨h1, h2⟩, h3⟩ := ha
    exact ⟨a - base, by omega, by rwa [show base + (a - base) = a by omega]⟩
  · rintro ⟨j, h1, h2⟩
    exact List.ne_nil_of_mem (mem_failing.2 ⟨mem_byteRange.2 ⟨by omega, by omega⟩, h2⟩)

theorem failing_range_eq_nil {p : Params} {base n : Nat} :
    failing p (byteRange base n) = [] ↔ ∀ j, j < n → memOK p (base + j) = true := by
  by_cases h : failing p (byteRange base n) = []
  · simp only [h, true_iff]
    intro j hj
    by_contra hc
    exact failing_range_ne_nil.2 ⟨j, hj, by simpa using hc⟩ h
  · simp only [h, false_iff]
    intro hall
    obtain ⟨j, hj, hf⟩ := failing_range_ne_nil.1 h
    rw [hall j hj] at hf
    cases hf

/-- A BusError after a phase over one range records an address of that range that did not respond (60_exceptions.md R216,
R220). -/
theorem busError_at {s t : State} (hs : SameButWorking s { t with mem := s.mem }) {base n : Nat}
    (hfit : base + n ≤ addressLimit) (hne : failing s.cfg (byteRange base n) ≠ []) :
    ∃ a, base ≤ a ∧ a < base + n ∧ memOK s.cfg a = false ∧
      BusErrorAt a s (busError (failing s.cfg (byteRange base n)) t) := by
  have hm := drawAddress_mem t.draws hne
  rw [mem_failing, mem_byteRange] at hm
  obtain ⟨⟨h1, h2⟩, h3⟩ := hm
  have hseq : t.seq = s.seq := hs.seq
  refine ⟨_, h1, h2, h3, ?_, rfl, rfl, by simp [hseq], hs.progress, ?_, ?_⟩
  · constructor <;> simp only [busError_cfg, busError_src, busError_dst, busError_len, busError_seq, busError_pending,
      busError_busData, busError_raced, hseq]
    exacts [hs.cfg, hs.src, hs.dst, hs.len, hs.pending, hs.busData, hs.raced]
  · rw [busError_errAddr, BitVec.toNat_ofNat]
    apply Nat.mod_eq_of_lt
    unfold addressLimit at hfit
    omega
  · rw [busError_errorRecord, busError_errAddr]
    exact congrArg (· ++ _) hs.errorRecord

/-- What a turn of the unit never changes, in any state: the parameters, SRC, DST, LEN, the operands in SEQ, what is
pending, what the host last read, the race mark. -/
theorem unitStep_frame (s : State) : TurnFrame s (unitStep s) := by
  have run : ∀ path : Path, s.seq.mode = path.mode → TurnFrame s (unitStep s) := by
    intro path hmode
    rcases unitStep_cases hmode with ⟨_, he⟩ | ⟨_, _, u, hu, he⟩ | ⟨_, _, w, hw, he⟩ <;> rw [he]
    · constructor <;> rfl
    · constructor <;> simp only [busError_cfg, busError_src, busError_dst, busError_len, busError_seq, busError_pending,
        busError_busData, busError_raced, unspecify_cfg, unspecify_src, unspecify_dst, unspecify_len, unspecify_seq,
        unspecify_pending, unspecify_busData, unspecify_raced, hu.seq]
      exacts [hu.cfg, hu.src, hu.dst, hu.len, hu.pending, hu.busData, hu.raced]
    · have hseq : ∀ n, (advance n w).seq.src = w.seq.src ∧ (advance n w).seq.dst = w.seq.dst ∧
          (advance n w).seq.len = w.seq.len ∧ (advance n w).seq.pf = w.seq.pf := by
        intro n; unfold advance; dsimp only; split <;> exact ⟨rfl, rfl, rfl, rfl⟩
      obtain ⟨h1, h2, h3, h4⟩ := hseq path.granularity
      constructor <;> simp only [advance_cfg, advance_src, advance_dst, advance_len, advance_pending, advance_busData,
        advance_raced, h1, h2, h3, h4, hw.seq]
      exacts [hw.cfg, hw.src, hw.dst, hw.len, hw.pending, hw.busData, hw.raced]
  cases hm : s.seq.mode with
  | idle => rw [unitStep_idle hm]; constructor <;> rfl
  | scalar => exact run .scalar hm
  | bulk => exact run .bulk hm

/-- A turn of the unit in any state leaves the error record, and STATUS.ERR as it was or 0, or it adds the BusError it
records in STATUS and ERR_ADDR (60_exceptions.md R216, R232). -/
theorem unitStep_errors (s : State) :
    ((unitStep s).errorRecord = s.errorRecord ∧
      ((unitStep s).status.err = s.status.err ∨ (unitStep s).status.err = none)) ∨
    (∃ a, (unitStep s).errorRecord = s.errorRecord ++ [{ code := .busError, addr := a }] ∧
      (unitStep s).status.err = some .busError ∧ (unitStep s).errAddr = a) := by
  have run : ∀ path : Path, s.seq.mode = path.mode →
      ((unitStep s).errorRecord = s.errorRecord ∧
        ((unitStep s).status.err = s.status.err ∨ (unitStep s).status.err = none)) ∨
      (∃ a, (unitStep s).errorRecord = s.errorRecord ++ [{ code := .busError, addr := a }] ∧
        (unitStep s).status.err = some .busError ∧ (unitStep s).errAddr = a) := by
    intro path hmode
    rcases unitStep_cases hmode with ⟨_, he⟩ | ⟨_, _, u, hu, he⟩ | ⟨_, _, w, hw, he⟩ <;> rw [he]
    · exact .inr ⟨_, rfl, rfl, rfl⟩
    · refine .inr ⟨_, ?_, rfl, rfl⟩
      simp only [busError_errorRecord, unspecify_errorRecord, unspecify_draws, hu.errorRecord, busError_errAddr]
    · refine .inl ⟨by rw [advance_errorRecord, hw.errorRecord], ?_⟩
      rw [← hw.status]
      unfold advance
      dsimp only
      split
      · exact .inr rfl
      · exact .inl rfl
  cases hm : s.seq.mode with
  | idle => rw [unitStep_idle hm]; exact .inl ⟨rfl, .inl rfl⟩
  | scalar => exact run .scalar hm
  | bulk => exact run .bulk hm

/-- The only bytes of memory a turn of the unit can change are those of its step's destination. -/
theorem unitStep_mem {path : Path} {s : State} (hmode : s.seq.mode = path.mode) (hm : s.mem.wf = true) {x : Nat}
    (hx : x < stepDst path.granularity s ∨ stepDst path.granularity s + path.granularity ≤ x) :
    (unitStep s).mem.read x = s.mem.read x := by
  rcases unitStep_cases hmode with ⟨_, he⟩ | ⟨_, _, u, hu, he⟩ | ⟨_, _, w, hw, he⟩ <;> rw [he]
  · rfl
  · rw [busError_mem, unspecify_read_other (by rw [hu.mem]; exact hm) hx, hu.mem]
  · rw [advance_mem, hw.outside hm x hx]

/-- What a command can do, said once (44_dispatch_control.md R190): nothing while busy; while idle nothing (CM.NOP), clear
the report (CM.CLEAR), fail at acceptance, or start a run whose operands pass the checks. -/
theorem exec_cases (i : Instr) (s : State) :
    (s.status.busy = true ∧ exec i s = .next s) ∨
    (s.status.busy = false ∧
      ((i = .nop ∧ exec i s = .next s) ∨ (i = .clear ∧ exec i s = .next (clearReport s)) ∨
        (∃ e, e ≠ .busError ∧ exec i s = .next (fail e 0 s)) ∨
        (∃ path n pf, rejection path n s.src.toNat s.dst.toNat = none ∧ exec i s = .next (acceptRun path n pf s)))) := by
  cases hb : s.status.busy with
  | true => exact .inl ⟨rfl, by cases i <;> (simp only [exec, execNop, execScalar, execBulk, execBulkPf, execWb, execWbPf, execClear]; exact whenIdle_busy hb)⟩
  | false =>
    refine .inr ⟨rfl, ?_⟩
    have hrun : ∀ path n, runOf i s = some (path, n) → ((i = .bulk ∨ i = .bulkPf) → s.cfg.vecPresent = true) →
        (∃ e, e ≠ .busError ∧ exec i s = .next (fail e 0 s)) ∨
        (∃ path n pf, rejection path n s.src.toNat s.dst.toNat = none ∧ exec i s = .next (acceptRun path n pf s)) := by
      intro path n hr hv
      obtain ⟨pf, he⟩ := exec_run hb hr hv
      rcases requestRun_cases ⟨path, n, pf⟩ s with ⟨h1, h2⟩ | ⟨e, _, h2, h3⟩
      · exact .inr ⟨path, n, pf, h1, by rw [he, h2]⟩
      · exact .inl ⟨e, by rcases h2 with rfl | rfl <;> decide, by rw [he, h3]⟩
    have hnov : (i = .bulk ∨ i = .bulkPf) → s.cfg.vecPresent = false → exec i s = .next (fail .illegalCommand 0 s) := by
      rintro (rfl | rfl) hv <;> simp [exec, execBulk, execBulkPf, whenIdle, hb, requestBulk, hv]
    cases hi : runOf i s with
    | none =>
      cases i <;> simp only [runOf, reduceCtorEq] at hi
      · exact .inl ⟨rfl, by simp [exec, execNop, whenIdle]⟩
      · exact .inr (.inl ⟨rfl, whenIdle_idle hb⟩)
    | some r =>
      refine .inr (.inr ?_)
      by_cases hv : (i = .bulk ∨ i = .bulkPf) → s.cfg.vecPresent = true
      · exact hrun r.1 r.2 hi hv
      · rw [Classical.not_imp] at hv
        exact .inl ⟨_, by decide, hnov hv.1 (by simpa using hv.2)⟩

/-- A word that is no command, written to CMD, does one of two things (30_encoding.md R88). -/
theorem illegalWord_cases (s : State) :
    (s.status.busy = true ∧ illegalWord s = .next s) ∨
    (s.status.busy = false ∧ illegalWord s = .next (fail .illegalCommand 0 s)) := by
  cases hb : s.status.busy with
  | true => exact .inl ⟨rfl, whenIdle_busy hb⟩
  | false => exact .inr ⟨rfl, whenIdle_idle hb⟩

end Sys2Proof.Machine
end

