-- ==== Sys2Proof/Tests/Slice0.lean ====
section
/-! SUPPORT. The model's own tests: words written out from the encoding tables, vectors of 95_test_vectors.md, ill-formed
terms the checks refuse, and, for every statement with hypotheses, a state that meets them (`test_witness_…`). -/

namespace Sys2Proof.Tests

open Sys2Proof.Machine

/-! ### WellFormed smoke tests (30_encoding.md R83 to R85; 00_scope.md R7) -/

theorem test_reserved_bit_is_ill_formed : CommandFields.wellFormed { op := 2, pf := 0, rsv := 1 } = false := by decide
theorem test_operation_5_is_ill_formed : CommandFields.wellFormed { op := 5, pf := 0, rsv := 0 } = false := by decide
theorem test_prefetch_with_scalar_is_ill_formed : CommandFields.wellFormed { op := 1, pf := 1, rsv := 0 } = false := by
  decide
theorem test_prefetch_with_bulk_is_well_formed : CommandFields.wellFormed { op := 2, pf := 1, rsv := 0 } = true := by
  decide
theorem test_zero_width_is_ill_formed : Params.wellFormed { platform with imgW := 0 } = false := by decide
theorem test_zero_height_is_ill_formed : Params.wellFormed { platform with imgH := 0 } = false := by decide
theorem test_frame_of_4_gigabytes_is_ill_formed :
    Params.wellFormed { platform with imgW := 0xFFFF, imgH := 0xFFFF } = false := by decide
theorem test_platform_is_well_formed : Params.wellFormed platform = true := by decide
theorem test_listed_zero_byte_is_ill_formed : Memory.wf [(1, 0)] = false := by decide
theorem test_unsorted_memory_is_ill_formed : Memory.wf [(2, 5), (1, 5)] = false := by decide
theorem test_address_past_the_space_is_ill_formed : Memory.wf [(2 ^ 32, 5)] = false := by decide
theorem test_write_of_the_unlisted_byte_removes_the_entry :
    Memory.write [(1, 7), (2, 8), (3, 9)] 2 0 = [(1, 7), (3, 9)] := by decide

/-! ### Decoding: words of 30_encoding.md R86 written out bit by bit, `{RSV[31:5], PF[4], OP[3:0]}` -/

theorem test_decode_nop : decode 0b000000000000000000000000000_0_0000 = .command .nop := by decide
theorem test_decode_scalar : decode 0b000000000000000000000000000_0_0001 = .command .scalar := by decide
theorem test_decode_bulk : decode 0b000000000000000000000000000_0_0010 = .command .bulk := by decide
theorem test_decode_bulkPf : decode 0b000000000000000000000000000_1_0010 = .command .bulkPf := by decide
theorem test_decode_wb : decode 0b000000000000000000000000000_0_0011 = .command .wb := by decide
theorem test_decode_wbPf : decode 0b000000000000000000000000000_1_0011 = .command .wbPf := by decide
theorem test_decode_clear : decode 0b000000000000000000000000000_0_0100 = .command .clear := by decide
/-- The illegal words of 95_test_vectors.md L2.4. -/
theorem test_decode_illegal_words :
    ([0x10, 0x11, 0x14, 0x5, 0xF, 0x22, 0x80000002, 0xFFFFFFFF] : List Word).map (fun w => (decode w).instr?) =
      [none, none, none, none, none, none, none, none] := by decide
theorem test_decode_table_word : decodeTableWord 32 0x12 = some .bulkPf ∧ decodeTableWord 32 0x22 = none := by decide
theorem test_decode_bytes_least_significant_first :
    decodeBytes [0x13, 0, 0, 0, 0xAA] = some (.command .wbPf, [0xAA]) := by decide

/-! ### Helpers -/

/-- The state an outcome leads to. -/
def after (o : Host.Outcome State Fault Refusal) : Option State :=
  match o with
  | .next s => some s
  | .fault _ => none
  | .refused _ => none

/-- STATUS as read after an outcome. -/
def statusAfter (o : Host.Outcome State Fault Refusal) : Option Word := (after o).map fun s => s.status.word

/-- An idle unit with operands (the start of the vectors of 95_test_vectors.md L2.5). -/
def idleWith (src dst len : Word) : State := { State.reset with src := src, dst := dst, len := len }

/-- An idle unit with operands whose parameters have no vector array. -/
def noVector (src dst len : Word) : State :=
  { idleWith src dst len with cfg := { platform with vecPresent := false } }

/-- `s0` of 95_test_vectors.md L2.5. -/
def s0 : Word := 0x20000000

/-- A run in progress at index `idx`, on the platform of Machine/Platform.lean. -/
def running (path : Path) (src dst len idx : Word) : State :=
  { idleWith src dst len with
    seq := { mode := path.mode, src := src, dst := dst, len := len, pf := false, idx := idx }
    status := .running
    progress := BitVec.ofNat 32 (path.granularity * idx.toNat) }

/-- Group G1 of 95_test_vectors.md L2.3 at `s0`, its zero bytes unlisted. -/
def groupG1 : Memory :=
  Memory.writeAll [] (((List.range 24).map (0x20000000 + ·)).zip
    [0x0A, 0x14, 0x1E, 0x00, 0x00, 0x00, 0xFF, 0xFF, 0xFF, 0xFF, 0x00, 0x00,
     0x00, 0xFF, 0x00, 0x00, 0x00, 0xFF, 0x00, 0x2C, 0x08, 0x06, 0x58, 0x8B])

/-- The bytes of a state's memory from an address up. -/
def bytesAt (a n : Nat) (s : State) : List Byte := (byteRange a n).map s.mem.read

/-! ### The commands: acceptance vectors of 95_test_vectors.md L2.5 -/

theorem test_nop_keeps_the_report :
    statusAfter (exec .nop { State.reset with status := .completed }) = some 0x00000002 := by decide
theorem test_clear_clears_the_report :
    statusAfter (exec .clear { State.reset with status := .failed .invalidLength }) = some 0 := by decide
/-- A1, A3. -/
theorem test_scalar_one_pixel : statusAfter (exec .scalar (idleWith s0 0x20000100 3)) = some 0x01 := by decide
theorem test_scalar_length_4 : statusAfter (exec .scalar (idleWith s0 0x20000100 4)) = some 0x10 := by decide
/-- A6, A12. -/
theorem test_bulk_length_25 : statusAfter (exec .bulk (idleWith s0 0x20000100 25)) = some 0x10 := by decide
theorem test_bulk_adjacent_buffers : statusAfter (exec .bulk (idleWith s0 0x20000030 48)) = some 0x01 := by decide
/-- A10, A15. -/
theorem test_bulkPf_partial_overlap : statusAfter (exec .bulkPf (idleWith s0 0x20000018 48)) = some 0x20 := by decide
theorem test_bulkPf_without_vector : statusAfter (exec .bulkPf (noVector s0 0x20000100 24)) = some 0x30 := by decide
/-- A17, A18. -/
theorem test_wb_frame_8x1 : (after (exec .wb (idleWith s0 0x20000100 5))).map (fun s => s.seq.len) = some 24 := by decide
theorem test_wb_frame_3x1 :
    statusAfter (exec .wb { idleWith s0 0x20000100 5 with cfg := { platform with imgW := 3 } }) = some 0x10 := by decide
/-- A19 and P4: the scalar fallback ignores the hint. -/
theorem test_wbPf_fallback :
    (after (exec .wbPf (noVector s0 0x20000200 5))).map (fun s => (s.seq.mode, s.seq.pf, s.seq.len)) =
      some (.scalar, false, 24) := by decide
theorem test_wbPf_vector_path :
    (after (exec .wbPf (idleWith s0 0x20000200 5))).map (fun s => (s.seq.mode, s.seq.pf)) = some (.bulk, true) := by decide
/-- A13, A14: a range may end at 2^32 and not pass it. -/
theorem test_range_may_end_at_the_top :
    statusAfter (exec .bulk (idleWith 0xFFFFFFE8 s0 24)) = some 0x01 ∧
    statusAfter (exec .bulk (idleWith 0xFFFFFFF0 s0 24)) = some 0x20 := by decide
/-- A20, A21. -/
theorem test_illegal_word_before_other_checks : statusAfter (cmdWrite 0x5 (idleWith 0 0 0)) = some 0x30 := by decide
theorem test_command_dropped_while_busy :
    statusAfter (cmdWrite 0x5 (running .scalar s0 0x20000100 6 1)) = some 0x01 := by decide

/-! ### The datapath: 95_test_vectors.md L2.1, L2.2 -/

theorem test_matrix_saturation : [cm 255 255 255 0, cm 255 255 255 1, cm 255 255 255 2] = [255, 250, 255] := by decide
theorem test_matrix_worked_example : [cm 10 20 30 0, cm 10 20 30 1, cm 10 20 30 2] = [49, 13, 13] := by decide
/-- Ties of the three rows: (0,44,8), (0,20,40), (8,12,12). -/
theorem test_matrix_ties : [cm 0 44 8 0, cm 0 20 40 1, cm 8 12 12 2] = [1, 7, 15] := by decide
theorem test_converter_corners :
    [satn (-256275), satn (-1), satn 499, satn 500, satn 14500, satn 254499, satn 254500, satn 769335] =
      [0, 0, 0, 1, 15, 254, 255, 255] := by decide

/-! ### Steps of a run: 95_test_vectors.md P1, L2.3, L2.6 -/

/-- P1: the pixel step. -/
theorem test_pixel_step :
    (after (step { running .scalar s0 0x20000100 3 0 with mem := groupG1 })).map
      (fun s => (bytesAt 0x20000100 3 s, s.status.word, s.progress)) = some ([0x31, 0x0D, 0x0D], 2, 3) := by
  decide +kernel
/-- L2.3: the group step over G1. -/
theorem test_group_step :
    (after (step { running .bulk s0 0x20000100 24 0 with mem := groupG1 })).map
      (fun s => (bytesAt 0x20000100 24 s, s.status.word, s.progress)) =
      some ([0x31, 0x0D, 0x0D, 0x00, 0x00, 0x00, 0xFF, 0xFA, 0xFF, 0x00, 0x29, 0xFF,
             0x00, 0xFF, 0x00, 0xFF, 0x00, 0x00, 0x01, 0x36, 0x00, 0xFF, 0x30, 0x00], 2, 24) := by
  decide +kernel
/-- L2.3: partial accumulation of lane 0, row 2: 30170, 16890, 12720. -/
theorem test_lane_accumulation :
    let s := uGather 2 (uGather 1 (uGather 0 { running .bulk s0 0x20000100 24 0 with mem := groupG1 }))
    [(uVmul 2 s).lanes.acc[2][0], (uVmac 2 1 (uVmul 2 s)).lanes.acc[2][0],
      (uVmac 2 2 (uVmac 2 1 (uVmul 2 s))).lanes.acc[2][0]] = [30170, 16890, 12720] := by decide +kernel
/-- B1 (with the one address that does not respond just past a region): the gather fails and nothing is written. -/
def b1 : State :=
  { running .bulk s0 0x20001000 48 0 with
    cfg := { platform with memMap := [⟨0x20000000, 0x10⟩, ⟨0x20000011, 0xFFEF⟩] }, mem := groupG1 }
theorem test_failing_gather :
    (after (step b1)).map (fun s => (s.status.word, s.errAddr, s.progress, s.mem == groupG1)) =
      some (0x40, 0x20000010, 0, true) := by decide +kernel
/-- B3 at its second pixel: the write of 0x20001004 fails. -/
def b3 : State :=
  { running .scalar s0 0x20001000 9 1 with
    cfg := { platform with memMap := [⟨0x20000000, 0x1004⟩, ⟨0x20001005, 0xEFFB⟩] }, mem := groupG1 }
theorem test_failing_write :
    (after (step b3)).map (fun s => (s.status.word, s.errAddr, s.progress)) = some (0x40, 0x20001004, 3) := by decide +kernel
/-- B5: a buffer over the register window (20_memory.md R63). -/
theorem test_register_window_is_not_memory :
    memOK { platform with memMap := [⟨0, 2 ^ 32⟩] } 0x400000FF = false ∧
    memOK { platform with memMap := [⟨0, 2 ^ 32⟩] } 0x40000100 = true := by decide

/-! ### Registers: 95_test_vectors.md L2.7 -/

/-- R-1, R-9. -/
theorem test_identification_registers :
    [readReg .id State.reset, readReg .cap State.reset, readReg .imgDim State.reset] =
      [0x434D3301, 0x00030801, 0x00010008] ∧
    capWord { platform with vecPresent := false, laneMode := .tolerant } = 0x00030802 := by decide
/-- R-4, R-6, R-7 through `step`. -/
theorem test_write_of_a_coefficient_is_ignored :
    (after (step { State.reset with pending := [wr32 0x50 0xFFFFFFFF, rd32 0x50] })).map (readReg (.coef 4)) =
      some 0x00000523 := by decide
theorem test_source_register_reads_back :
    (after (step { State.reset with pending := [wr32 0x08 0xDEADBEEF] })).map (readReg .src) = some 0xDEADBEEF := by decide
theorem test_source_register_keeps_its_value_while_busy :
    (after (step { running .scalar s0 0x20000100 6 1 with pending := [wr32 0x08 0xDEADBEEF] })).map (readReg .src) =
      some s0 := by decide

/-! ### States that meet the hypotheses of the statements -/

theorem reset_legal : LegalState State.reset := ⟨rfl, .inl ⟨rfl, rfl, rfl, rfl⟩⟩

/-- A scalar run in its second pixel, into another buffer. -/
def scalarRun : State := running .scalar s0 0x20000100 6 1
theorem scalarRun_run : RunInv .scalar scalarRun := by constructor <;> decide
theorem scalarRun_legal : LegalState scalarRun := ⟨rfl, .inr (.inl ⟨rfl, .scalar, scalarRun_run⟩)⟩
theorem scalarRun_memOK : ∀ j, j < Path.granularity .scalar →
    memOK scalarRun.cfg (stepSrc 3 scalarRun + j) = true ∧ memOK scalarRun.cfg (stepDst 3 scalarRun + j) = true := by
  decide

/-- A vector run in its first group, in place. -/
def bulkRun : State := running .bulk s0 s0 48 0
theorem bulkRun_run : RunInv .bulk bulkRun := by constructor <;> decide
theorem bulkRun_legal : LegalState bulkRun := ⟨rfl, .inr (.inl ⟨rfl, .bulk, bulkRun_run⟩)⟩
theorem bulkRun_memOK : ∀ j, j < Path.granularity .bulk →
    memOK bulkRun.cfg (stepSrc 24 bulkRun + j) = true ∧ memOK bulkRun.cfg (stepDst 24 bulkRun + j) = true := by
  decide

/-- On the platform every byte of its one region is `MemOK`. -/
theorem platform_memOK {a : Nat} (h1 : 0x20000000 ≤ a) (h2 : a < 0x20010000) : memOK platform a = true := by
  have hb : platform.unitBase = 0x40000000 := by decide
  have hm : platform.memMap = [⟨0x20000000, 0x10000⟩] := rfl
  simp only [memOK, inWindow, hb, hm, List.any_cons, List.any_nil, Bool.or_false, addressLimit, Bool.and_eq_true,
    decide_eq_true_eq, Bool.not_eq_true', Bool.and_eq_false_iff, decide_eq_false_iff_not]
  exact ⟨⟨decide_eq_true (by omega), by omega⟩, by omega⟩

theorem test_witness_StepRunsTheDecodedCommand :
    (State.reset.withFetchWord 32 1).pending = .regWrite 0x14 .word 1 :: [] ∧ decode 1 = .command .scalar := by decide
theorem test_witness_StepTakesTheNextHostAccess :
    { State.reset with pending := [rd32 0x18] }.pending = .regRead 0x18 .word :: [] ∧
    { State.reset with pending := [wr32 0x08 1] }.pending = .regWrite 0x08 .word 1 :: [] ∧
    { State.reset with pending := [.dataRead 5] }.pending = .dataRead 5 :: [] ∧
    { State.reset with pending := [.dataWrite 5 6] }.pending = .dataWrite 5 6 :: [] := by decide
theorem test_witness_ResetValues : platform.vecPresent = true ∧ platform.laneMode = .exact := by decide
theorem test_witness_CoefficientRegisters :
    (0x40 : Byte).toNat = 0x40 + 4 * (0 : Fin 9).val ∧ (0x60 : Byte).toNat = 0x40 + 4 * (8 : Fin 9).val := by decide
theorem test_witness_CapRegister :
    State.reset.cfg.vecPresent = true ∧ State.reset.cfg.laneMode = .exact := by decide
theorem test_witness_StoredRegistersReadBack : State.reset.status.busy = false := by decide
theorem test_witness_ReservedOffsetsAndBits :
    ([0x28, 0x3C, 0x64, 0xFC] : List Byte).all (fun off => decide (off.toNat % 4 = 0 ∧
      (0x28 ≤ off.toNat ∧ off.toNat ≤ 0x3C ∨ 0x64 ≤ off.toNat ∧ off.toNat ≤ 0xFC))) = true := by decide
theorem test_witness_BusyDropsRegisterWrites :
    scalarRun.status.busy = true ∧ regAt 0x14 = some .cmd ∧ regAt 0x08 = some .src ∧ regAt 0x28 = some .reserved := by decide
theorem test_witness_ReadOnlyRegistersIgnoreWrites :
    (0x60 : Byte).toNat ∈ [0x00, 0x04, 0x18, 0x1C, 0x20, 0x24, 0x40, 0x44, 0x48, 0x4C, 0x50, 0x54, 0x58, 0x5C, 0x60] ∧
    regAt 0x00 = some .id ∧ regAt 0xFC = some .reserved := by decide
theorem test_witness_OtherHostAccessesAreRefused :
    (Width.byte ≠ Width.word) ∧ (0x16 : Byte).toNat % 4 ≠ 0 ∧
    platform.unitBase ≤ (0x40000000 : Word).toNat ∧ (0x400000FF : Word).toNat < platform.unitBase + 256 := by decide
theorem test_witness_StatusCombinations : LegalState State.reset := reset_legal
/-- The error numbers of 60_exceptions.md R211, written out. -/
theorem test_error_numbers :
    ([none, some .invalidLength, some .invalidBuffer, some .illegalCommand, some .busError] : List (Option ErrorCode)).map
      (fun e => Status.word { busy := false, done := false, err := e }) = [0x00, 0x10, 0x20, 0x30, 0x40] := by decide
theorem test_witness_ClearClearsTheReport :
    { State.reset with status := .failed .busError }.status.busy = false ∧ scalarRun.status.busy = true := by decide
theorem test_witness_BusyDropsCommands : scalarRun.status.busy = true := by decide
theorem test_witness_ScalarIsAccepted :
    (idleWith s0 s0 3).status.busy = false ∧ Acceptable .scalar (idleWith s0 s0 3).len.toNat (idleWith s0 s0 3) :=
  ⟨by decide, by constructor <;> decide⟩
theorem test_witness_BulkIsAccepted :
    (idleWith 0xFFFFFFE8 s0 24).status.busy = false ∧ (idleWith 0xFFFFFFE8 s0 24).cfg.vecPresent = true ∧
      Acceptable .bulk (idleWith 0xFFFFFFE8 s0 24).len.toNat (idleWith 0xFFFFFFE8 s0 24) :=
  ⟨by decide, by decide, by constructor <;> decide⟩
theorem test_witness_WhiteBalanceIsAccepted_vector :
    (idleWith s0 0x20000018 0).status.busy = false ∧ (idleWith s0 0x20000018 0).cfg.vecPresent = true ∧
      Acceptable .bulk ((idleWith s0 0x20000018 0).cfg.imgW.toNat * (idleWith s0 0x20000018 0).cfg.imgH.toNat * 3)
        (idleWith s0 0x20000018 0) :=
  ⟨by decide, by decide, by constructor <;> decide⟩
theorem test_witness_WhiteBalanceIsAccepted_scalar :
    (noVector s0 s0 0).status.busy = false ∧ (noVector s0 s0 0).cfg.vecPresent = false ∧
      Acceptable .scalar ((noVector s0 s0 0).cfg.imgW.toNat * (noVector s0 s0 0).cfg.imgH.toNat * 3) (noVector s0 s0 0) :=
  ⟨by decide, by decide, by constructor <;> decide⟩
theorem test_witness_BadLengthIsRejected :
    runOf .scalar (idleWith s0 s0 0) = some (.scalar, 0) ∧ runOf .scalar (idleWith s0 s0 4) = some (.scalar, 4) ∧
    runOf .bulkPf (idleWith s0 s0 25) = some (.bulk, 25) ∧ (idleWith s0 s0 25).cfg.vecPresent = true ∧
    (idleWith s0 s0 25).status.busy = false ∧ 4 % 3 ≠ 0 ∧ 25 % 24 ≠ 0 ∧
    runOf .scalar (idleWith s0 s0 3) = some (.scalar, 3) := by decide
theorem test_witness_BadBufferIsRejected :
    runOf .bulk (idleWith 0 s0 24) = some (.bulk, 24) ∧ (idleWith 0 s0 24).src = 0 ∧
    (idleWith 0xFFFFFFE9 s0 24).src.toNat + 24 > 2 ^ 32 ∧
    (idleWith s0 0x20000017 24).src ≠ (idleWith s0 0x20000017 24).dst ∧
    (idleWith s0 0x20000017 24).src.toNat < (idleWith s0 0x20000017 24).dst.toNat + 24 ∧
    (idleWith s0 0x20000017 24).dst.toNat < (idleWith s0 0x20000017 24).src.toNat + 24 ∧
    24 % Path.granularity .bulk = 0 ∧ (idleWith 0 s0 24).status.busy = false ∧
    (idleWith 0 s0 24).cfg.vecPresent = true := by decide
theorem test_witness_BulkNeedsTheVectorArray :
    (noVector 0 0 0).status.busy = false ∧ (noVector 0 0 0).cfg.vecPresent = false := by decide
theorem test_witness_IllegalWordIsRejected : ∀ i : Instr, (0x10 : Word) ≠ encode i := by
  intro i; cases i <;> decide
theorem test_witness_IllegalWordIsRejected_bulk :
    (noVector 0 0 0).status.busy = false ∧ (noVector 0 0 0).cfg.vecPresent = false ∧ (0x12 : Word) = encode .bulkPf := by
  decide
theorem test_witness_FirstFailingCheckIsReported :
    (noVector 0 0 25).status.busy = false ∧ runOf .bulk (noVector 0 0 25) = some (.bulk, 25) ∧
    runOf .wb (noVector 0 0 25) = some (.scalar, 24) := by decide
theorem test_witness_LaneAccumulatorsAreExact : (1 : Fin 3) ≠ 2 := by decide
theorem test_witness_LanesComputeTheirOwnPixel :
    bulkRun.cfg.laneMode = .exact ∧
      { bulkRun with cfg := { platform with laneMode := .tolerant } }.cfg.laneMode = .tolerant := by decide
theorem test_witness_RunStepWritesItsPixels :
    LegalState scalarRun ∧ scalarRun.status.busy = true ∧ RunInv .scalar scalarRun ∧ scalarRun.raced = false ∧
    LegalState bulkRun ∧ bulkRun.status.busy = true ∧ RunInv .bulk bulkRun ∧ bulkRun.raced = false :=
  ⟨scalarRun_legal, rfl, scalarRun_run, rfl, bulkRun_legal, rfl, bulkRun_run, rfl⟩
theorem test_witness_RunStepWritesItsPixels_memory :
    (∀ j, j < Path.granularity .scalar →
      memOK scalarRun.cfg (stepSrc 3 scalarRun + j) = true ∧ memOK scalarRun.cfg (stepDst 3 scalarRun + j) = true) ∧
    (∀ j, j < Path.granularity .bulk →
      memOK bulkRun.cfg (stepSrc 24 bulkRun + j) = true ∧ memOK bulkRun.cfg (stepDst 24 bulkRun + j) = true) :=
  ⟨scalarRun_memOK, bulkRun_memOK⟩
/-- A scalar run whose source, and one whose destination, lies over the register window. -/
def windowRun (src dst : Word) : State :=
  { running .scalar src dst 3 0 with cfg := { platform with memMap := [⟨0, 2 ^ 32⟩] } }
theorem windowRun_source : RunInv .scalar (windowRun 0x400000FE s0) := by constructor <;> decide
theorem windowRun_destination : RunInv .scalar (windowRun s0 0x3FFFFFFE) := by constructor <;> decide
theorem test_witness_RegisterWindowIsNotMemory :
    LegalState (windowRun 0x400000FE s0) ∧ (windowRun 0x400000FE s0).status.busy = true ∧
    inWindow (windowRun 0x400000FE s0).cfg (stepSrc 3 (windowRun 0x400000FE s0) + 1) = true ∧
    LegalState (windowRun s0 0x3FFFFFFE) ∧ (windowRun s0 0x3FFFFFFE).status.busy = true ∧
    inWindow (windowRun s0 0x3FFFFFFE).cfg (stepDst 3 (windowRun s0 0x3FFFFFFE) + 2) = true :=
  ⟨⟨rfl, .inr (.inl ⟨rfl, .scalar, windowRun_source⟩)⟩, rfl, by decide,
    ⟨rfl, .inr (.inl ⟨rfl, .scalar, windowRun_destination⟩)⟩, rfl, by decide⟩
/-- The window's first and last byte, and the bytes on its two sides. -/
theorem test_witness_RegisterWindowIsNotMemory_boundary :
    platform.unitBase = 0x40000000 ∧ platform.unitBase ≤ 0x400000FF ∧ 0x400000FF < platform.unitBase + 256 ∧
    0x3FFFFFFF < platform.unitBase ∧ platform.unitBase + 256 ≤ 0x40000100 := by decide
theorem b1_run : RunInv .bulk b1 := by constructor <;> decide
theorem test_witness_FailingReadEndsTheRun :
    LegalState b1 ∧ b1.status.busy = true ∧ RunInv .bulk b1 ∧ memOK b1.cfg (stepSrc 24 b1 + 16) = false :=
  ⟨⟨by decide, .inr (.inl ⟨rfl, .bulk, b1_run⟩)⟩, rfl, b1_run, by decide⟩
theorem b3_run : RunInv .scalar b3 := by constructor <;> decide
theorem test_witness_FailingWriteEndsTheRun :
    LegalState b3 ∧ b3.status.busy = true ∧ RunInv .scalar b3 ∧
      (∀ j, j < 3 → memOK b3.cfg (stepSrc 3 b3 + j) = true) ∧ memOK b3.cfg (stepDst 3 b3 + 1) = false :=
  ⟨⟨by decide, .inr (.inl ⟨rfl, .scalar, b3_run⟩)⟩, rfl, b3_run, by decide, by decide⟩
/-- A run with which a host write has raced. -/
theorem test_witness_RunStepWritesItsPixels_raced :
    LegalState { bulkRun with raced := true } ∧ RunInv .bulk { bulkRun with raced := true } := by
  have h : RunInv .bulk { bulkRun with raced := true } := by constructor <;> decide
  exact ⟨⟨rfl, .inr (.inl ⟨rfl, .bulk, h⟩)⟩, h⟩
/-- A prefetch is issued in the group before the last and not in the last (43_vector_mac_lane.md R166). -/
theorem test_witness_PrefetchHasNoEffect :
    prefetchRange { bulkRun with seq := { bulkRun.seq with pf := true } } = some (0x20000018, 24) ∧
    prefetchRange { bulkRun with seq := { bulkRun.seq with pf := true, idx := 1 } } = none := by decide
theorem test_witness_TurnsOfTheUnit :
    State.reset.pending = [] ∧ { State.reset with pending := [.unitTurn] }.pending = .unitTurn :: [] ∧
    State.reset.seq.mode = .idle := by decide
/-- A run of two groups in place that has just been accepted, and one of two pixels into another buffer, in its second
pixel, with which a host write has raced. -/
theorem test_witness_RunCorrectsTheBuffer_bulk :
    LegalState bulkRun ∧ bulkRun.status.busy = true ∧ RunInv .bulk bulkRun ∧ bulkRun.seq.idx = 0 ∧
      bulkRun.pending = [] ∧ bulkRun.raced = false ∧ RunMemOK bulkRun :=
  ⟨bulkRun_legal, rfl, bulkRun_run, rfl, rfl, rfl, fun a h => by
    have hs : bulkRun.seq.src.toNat = 0x20000000 := rfl
    have hd : bulkRun.seq.dst.toNat = 0x20000000 := rfl
    have hl : bulkRun.seq.len.toNat = 48 := rfl
    simp only [inSource, inDestination, hs, hd, hl, Bool.and_eq_true, decide_eq_true_eq, or_self] at h
    exact platform_memOK h.1 (by omega)⟩
def racedRun : State := { scalarRun with raced := true }
theorem test_witness_RunCorrectsTheBuffer_scalar :
    RunInv .scalar racedRun ∧ LegalState racedRun ∧ racedRun.status.busy = true ∧ racedRun.pending = [] ∧
      RunMemOK racedRun := by
  have h : RunInv .scalar racedRun := by constructor <;> decide
  refine ⟨h, ⟨rfl, .inr (.inl ⟨rfl, .scalar, h⟩)⟩, rfl, rfl, fun a ha => ?_⟩
  have hs : racedRun.seq.src.toNat = 0x20000000 := rfl
  have hd : racedRun.seq.dst.toNat = 0x20000100 := rfl
  have hl : racedRun.seq.len.toNat = 6 := rfl
  simp only [inSource, inDestination, hs, hd, hl, Bool.and_eq_true, decide_eq_true_eq] at ha
  exact platform_memOK (by omega) (by omega)

/-- An idle unit with 48 bytes from `s0` to another buffer. -/
def idleFrame : State := idleWith s0 0x20000100 48
theorem idleFrame_legal : LegalState idleFrame := ⟨rfl, .inl ⟨rfl, rfl, rfl, rfl⟩⟩
theorem idleFrame_ranges_memOK (n : Nat) (hn : n ≤ 48) : ∀ a,
    (idleFrame.src.toNat ≤ a ∧ a < idleFrame.src.toNat + n) ∨
      (idleFrame.dst.toNat ≤ a ∧ a < idleFrame.dst.toNat + n) → memOK idleFrame.cfg a = true := by
  intro a h
  have hs : idleFrame.src.toNat = 0x20000000 := rfl
  have hd : idleFrame.dst.toNat = 0x20000100 := rfl
  rw [hs, hd] at h
  exact platform_memOK (by omega) (by omega)
theorem test_witness_ScalarAndBulkAgree :
    LegalState idleFrame ∧ idleFrame.status.busy = false ∧ idleFrame.cfg.vecPresent = true ∧
      Acceptable .bulk idleFrame.len.toNat idleFrame ∧
      (∀ a, (idleFrame.src.toNat ≤ a ∧ a < idleFrame.src.toNat + idleFrame.len.toNat) ∨
        (idleFrame.dst.toNat ≤ a ∧ a < idleFrame.dst.toNat + idleFrame.len.toNat) → memOK idleFrame.cfg a = true) :=
  ⟨idleFrame_legal, rfl, rfl, by constructor <;> decide, idleFrame_ranges_memOK 48 (by omega)⟩
theorem test_witness_WhiteBalancePathsAgree :
    idleFrame.cfg.wellFormed = true ∧ Acceptable .bulk idleFrame.cfg.frameBytes idleFrame ∧
      (∀ a, (idleFrame.src.toNat ≤ a ∧ a < idleFrame.src.toNat + idleFrame.cfg.frameBytes) ∨
        (idleFrame.dst.toNat ≤ a ∧ a < idleFrame.dst.toNat + idleFrame.cfg.frameBytes) → memOK idleFrame.cfg a = true) :=
  ⟨by decide, by constructor <;> decide, idleFrame_ranges_memOK 24 (by omega)⟩
theorem test_witness_EveryStepKeepsTheInvariant :
    LegalState State.reset ∧ step State.reset = .next State.reset := ⟨reset_legal, rfl⟩
theorem test_witness_ParametersNeverChange : step State.reset = .next State.reset := rfl
/-- A write of SRC while idle changes it; the same holds of DST and LEN. -/
theorem test_witness_OnlyTheHostWritesOperands :
    (after (step { State.reset with pending := [wr32 0x08 5] })).map (fun t => t.src) = some 5 ∧
    (after (step { State.reset with pending := [wr32 0x0C 6] })).map (fun t => t.dst) = some 6 ∧
    (after (step { State.reset with pending := [wr32 0x10 7] })).map (fun t => t.len) = some 7 := by decide
/-- The two ways a byte can change: the unit's step and a host write. -/
theorem test_witness_OnlyTheDestinationChanges :
    (after (step { running .scalar s0 0x20000100 3 0 with mem := [(0x20000002, 30)] })).map
      (fun t => t.mem.read 0x20000100) = some 63 ∧
    (after (step { State.reset with pending := [.dataWrite 9 7] })).map (fun t => t.mem.read 9) = some 7 := by
  decide +kernel
/-- A step that records an error, and one that records none. -/
theorem test_witness_ErrorRecordOnlyGrows :
    (after (step { State.reset with pending := [command .scalar] })).map (fun t => t.errorRecord) =
      some [⟨.invalidLength, 0⟩] ∧
    (after (step { State.reset with pending := [command .nop] })).map (fun t => t.errorRecord) = some [] := by decide
theorem test_witness_ProgressNeverFallsInARun :
    LegalState scalarRun ∧ scalarRun.status.busy = true ∧ RunInv .scalar scalarRun ∧
      step scalarRun = .next (unitStep scalarRun) ∧ scalarRun.pending = [] :=
  ⟨scalarRun_legal, rfl, scalarRun_run, rfl, rfl⟩
theorem test_witness_ResetAtAnyTime :
    LegalState { scalarRun with pending := [.reset] } ∧ { scalarRun with pending := [.reset] }.pending = .reset :: [] :=
  ⟨⟨rfl, .inr (.inl ⟨rfl, .scalar, by constructor <;> decide⟩)⟩, rfl⟩
/-- Idle; busy and away from the buffers; busy and at the first source byte and the last destination byte. -/
theorem test_witness_HostDataAccesses :
    scalarRun.mem.wf = true ∧ (0x20000105 : Word).toNat < scalarRun.cfg.unitBase ∧ State.reset.status.busy = false ∧
    scalarRun.status.busy = true ∧ scalarRun.seq.src.toNat = 0x20000000 ∧ scalarRun.seq.dst.toNat = 0x20000100 ∧
    scalarRun.seq.len.toNat = 6 := by decide
/-- The bytes on the two sides of the window. -/
theorem test_witness_HostDataAccesses_window :
    (0x3FFFFFFF : Word).toNat < State.reset.cfg.unitBase ∧
    State.reset.cfg.unitBase + 256 ≤ (0x40000100 : Word).toNat := by decide
theorem test_witness_PollReadsUntilItMatches :
    { State.reset with pending := cmWait }.pending = .poll 0x18 1 0 :: [] ∧ regAt 0x18 = some .status ∧
    readReg .status State.reset &&& 1 = 0 ∧ readReg .status scalarRun &&& 1 ≠ 0 := by decide

end Sys2Proof.Tests
end

section
/-! What each event of the host can do, said once per event, and the statements of 00_scope.md. -/

namespace Sys2Proof.Machine

/-! ### The outcomes of an event -/

/-- A write to CMD always has a next state: the same state, or, while idle, the report cleared, an error of acceptance, or
an accepted run (44_dispatch_control.md R190). -/
theorem cmdWrite_cases (w : Word) (s : State) : ∃ t, cmdWrite w s = .next t ∧
    (t = s ∨ (s.status.busy = false ∧ (t = clearReport s ∨ (∃ e, e ≠ .busError ∧ t = fail e 0 s) ∨
      (∃ path n pf, rejection path n s.src.toNat s.dst.toNat = none ∧ t = acceptRun path n pf s)))) := by
  unfold cmdWrite
  cases decode w with
  | command i =>
    rcases exec_cases i s with ⟨_, h⟩ | ⟨hb, ⟨_, h⟩ | ⟨_, h⟩ | ⟨e, he, h⟩ | ⟨path, n, pf, hr, h⟩⟩
    · exact ⟨s, h, .inl rfl⟩
    · exact ⟨s, h, .inl rfl⟩
    · exact ⟨_, h, .inr ⟨hb, .inl rfl⟩⟩
    · exact ⟨_, h, .inr ⟨hb, .inr (.inl ⟨e, he, rfl⟩)⟩⟩
    · exact ⟨_, h, .inr ⟨hb, .inr (.inr ⟨path, n, pf, hr, rfl⟩)⟩⟩
  | illegal why =>
    rcases illegalWord_cases s with ⟨_, h⟩ | ⟨hb, h⟩
    · exact ⟨s, h, .inl rfl⟩
    · exact ⟨_, h, .inr ⟨hb, .inr (.inl ⟨.illegalCommand, by decide, rfl⟩)⟩⟩

/-- A register read changes only what the host last read (10_state.md R38). -/
theorem hostRegRead_next {off : Byte} {width : Width} {s t : State} (h : hostRegRead off width s = .next t) :
    ∃ r, accessedReg off width = some r ∧ t = { s with busData := readReg r s } := by
  unfold hostRegRead at h
  split at h
  next r hr => cases h; exact ⟨r, hr, rfl⟩
  next => cases h

/-- A register write is a command write, or a write to another register (10_state.md R27). -/
theorem hostRegWrite_next {off : Byte} {width : Width} {v : Word} {s t : State}
    (h : hostRegWrite off width v s = .next t) :
    (accessedReg off width = some .cmd ∧ cmdWrite v s = .next t) ∨
    (∃ r, accessedReg off width = some r ∧ r ≠ .cmd ∧ t = writeReg r v s) := by
  unfold hostRegWrite at h
  split at h
  next hr => exact .inl ⟨hr, h⟩
  next r hne hr => cases h; exact .inr ⟨r, hr, hne, rfl⟩
  next => cases h

/-- A poll reads its register once; until the value matches it stays, behind a turn of the unit (30_encoding.md R93). -/
theorem hostPoll_next {off : Byte} {mask v : Word} {s t : State} (h : hostPoll off mask v s = .next t) :
    ∃ r, regAt off = some r ∧
      ((readReg r s &&& mask = v ∧ t = { s with busData := readReg r s }) ∨
        (readReg r s &&& mask ≠ v ∧
          t = { s with busData := readReg r s, pending := .unitTurn :: .poll off mask v :: s.pending })) := by
  unfold hostPoll at h
  split at h
  next r hr =>
    refine ⟨r, hr, ?_⟩
    dsimp only at h
    split at h
    next hv => cases h; exact .inl ⟨hv, rfl⟩
    next hv => cases h; exact .inr ⟨hv, rfl⟩
  next => cases h

/-- A read of a data byte outside the register window returns a free value for a destination byte of the current run, and
the byte in memory otherwise (20_memory.md R74). -/
theorem hostDataRead_next {a : Word} {s t : State} (h : hostDataRead a s = .next t) :
    inWindow s.cfg a.toNat = false ∧
      ((s.status.busy = true ∧ inDestination s a.toNat = true ∧
          t = { s with busData := (Config.freeByte s.draws 0).setWidth 32, draws := s.draws + 1 }) ∨
        ((s.status.busy && inDestination s a.toNat) = false ∧
          t = { s with busData := (s.mem.read a.toNat).setWidth 32 })) := by
  unfold hostDataRead at h
  split at h
  next => cases h
  next hw =>
    refine ⟨by simpa using hw, ?_⟩
    split at h
    next hd =>
      obtain ⟨hb, hi⟩ := Bool.and_eq_true_iff.1 hd
      cases h; exact .inl ⟨hb, hi, rfl⟩
    next hd => cases h; exact .inr ⟨by simpa using hd, rfl⟩

/-- A write of a data byte outside the register window stores the byte; one that races with the current run makes the
run's destination unspecified too (20_memory.md R74). -/
theorem hostDataWrite_next {a : Word} {v : Byte} {s t : State} (h : hostDataWrite a v s = .next t) :
    inWindow s.cfg a.toNat = false ∧
      ((s.status.busy = true ∧ (inSource s a.toNat || inDestination s a.toNat) = true ∧
          t = { unspecify s.seq.dst.toNat s.seq.len.toNat { s with mem := s.mem.write a.toNat v } with raced := true }) ∨
        ((s.status.busy && (inSource s a.toNat || inDestination s a.toNat)) = false ∧
          t = { s with mem := s.mem.write a.toNat v })) := by
  unfold hostDataWrite at h
  split at h
  next => cases h
  next hw =>
    refine ⟨by simpa using hw, ?_⟩
    dsimp only at h
    split at h
    next hd =>
      obtain ⟨hb, hi⟩ := Bool.and_eq_true_iff.1 hd
      cases h; exact .inl ⟨hb, hi, rfl⟩
    next hd => cases h; exact .inr ⟨by simpa using hd, rfl⟩

/-! ### The parameters (00_scope.md R7, 10_state.md R20) -/

@[simp] theorem writeReg_cfg (r : Reg) (v : Word) (s : State) : (writeReg r v s).cfg = s.cfg := by
  cases r with
  | src | dst | len => simp only [writeReg]; split <;> rfl
  | _ => rfl

@[simp] theorem resetUnit_cfg (s : State) : (resetUnit s).cfg = s.cfg := rfl

theorem cmdWrite_cfg {w : Word} {s t : State} (h : cmdWrite w s = .next t) : t.cfg = s.cfg := by
  obtain ⟨u, hu, hcases⟩ := cmdWrite_cases w s
  obtain rfl : u = t := by rw [hu] at h; exact Host.Outcome.next.inj h
  rcases hcases with rfl | ⟨_, rfl | ⟨e, _, rfl⟩ | ⟨path, n, pf, _, rfl⟩⟩
  · rfl
  · exact clearReport_cfg s
  · exact fail_cfg e 0 s
  · exact acceptRun_cfg path n pf s

theorem handle_cfg {e : Event} {s t : State} (h : handle e s = .next t) : t.cfg = s.cfg := by
  cases e with
  | regRead off width =>
    obtain ⟨_, _, rfl⟩ := hostRegRead_next h
    rfl
  | regWrite off width v =>
    rcases hostRegWrite_next h with ⟨_, hc⟩ | ⟨r, _, _, rfl⟩
    · exact cmdWrite_cfg hc
    · exact writeReg_cfg r v s
  | poll off mask v =>
    obtain ⟨_, _, ⟨_, rfl⟩ | ⟨_, rfl⟩⟩ := hostPoll_next h <;> rfl
  | dataRead a =>
    obtain ⟨_, ⟨_, _, rfl⟩ | ⟨_, rfl⟩⟩ := hostDataRead_next h <;> rfl
  | dataWrite a v =>
    obtain ⟨_, ⟨_, _, rfl⟩ | ⟨_, rfl⟩⟩ := hostDataWrite_next h <;> rfl
  | unitTurn =>
    obtain rfl := Host.Outcome.next.inj h
    exact (unitStep_frame s).cfg
  | reset =>
    obtain rfl := Host.Outcome.next.inj h
    exact resetUnit_cfg s

/-- Settles O49: a step is the unit's turn or a pending event, and neither changes the parameters. -/
theorem parametersNeverChange : Obligations.ParametersNeverChange := by
  intro s t h
  cases hp : s.pending with
  | nil =>
    rw [step_unit hp] at h
    obtain rfl := Host.Outcome.next.inj h
    exact (unitStep_frame s).cfg
  | cons e rest =>
    rw [step_event hp] at h
    exact (handle_cfg h :)

/-! ### The order of events (00_scope.md R15) -/

/-- Settles O6: a step with an event pending is that event (`step_event`), and `handle` gives each of the four accesses
its meaning. -/
theorem stepTakesTheNextHostAccess : Obligations.StepTakesTheNextHostAccess := by
  intro s rest
  refine ⟨?_, ?_, ?_, ?_⟩
  · intro off width hp; exact step_event hp
  · intro off width v hp; exact step_event hp
  · intro a hp; exact step_event hp
  · intro a v hp; exact step_event hp

end Sys2Proof.Machine
end


section
/-! The register block as the host sees it, the writes that change an operand, and the invariant: the statements of
10_state.md. -/

namespace Sys2Proof.Machine

/-! ### A write to a register (10_state.md R24 to R27, R36 to R38) -/

/-- The registers a write never changes in any state: all but SRC, DST, LEN and CMD (R36, R38). -/
def Reg.ignoresWrites : Reg → Bool
  | .src | .dst | .len | .cmd => false
  | .id | .cap | .status | .progress | .errAddr | .imgDim | .coef _ | .reserved => true

theorem writeReg_ignored {r : Reg} (h : r.ignoresWrites = true) (v : Word) (s : State) : writeReg r v s = s := by
  cases r with
  | src | dst | len | cmd => cases h
  | _ => rfl

/-- A write to a register other than CMD changes nothing, or, while idle, exactly SRC, DST or LEN. -/
theorem writeReg_cases (r : Reg) (v : Word) (s : State) :
    writeReg r v s = s ∨ (s.status.busy = false ∧
      ((r = .src ∧ writeReg r v s = { s with src := v }) ∨ (r = .dst ∧ writeReg r v s = { s with dst := v }) ∨
        (r = .len ∧ writeReg r v s = { s with len := v }))) := by
  cases r with
  | src | dst | len => cases hb : s.status.busy <;> simp [writeReg, hb]
  | _ => exact .inl rfl

theorem writeReg_busy {s : State} (hb : s.status.busy = true) (r : Reg) (v : Word) : writeReg r v s = s := by
  rcases writeReg_cases r v s with h | ⟨h, _⟩
  · exact h
  · simp [hb] at h

/-- The state after a write to CMD is one of those of `cmdWrite_cases`. -/
theorem cmdWrite_next {w : Word} {s t : State} (h : cmdWrite w s = .next t) :
    t = s ∨ (s.status.busy = false ∧ (t = clearReport s ∨ (∃ e, e ≠ .busError ∧ t = fail e 0 s) ∨
      (∃ path n pf, rejection path n s.src.toNat s.dst.toNat = none ∧ t = acceptRun path n pf s))) := by
  obtain ⟨u, hu, hcases⟩ := cmdWrite_cases w s
  obtain rfl := Host.Outcome.next.inj (hu.symm.trans h)
  exact hcases

/-- A word written to CMD while BUSY = 1 is dropped, whatever it is (R37). -/
theorem cmdWrite_busy {s : State} (hb : s.status.busy = true) (w : Word) : cmdWrite w s = .next s := by
  obtain ⟨t, ht, rfl | ⟨h, _⟩⟩ := cmdWrite_cases w s
  · exact ht
  · simp [hb] at h

/-! ### Host accesses to the register at an offset -/

/-- Only an aligned 32-bit access reaches a register (30_encoding.md R80). -/
theorem accessedReg_eq_some {off : Byte} {width : Width} {r : Reg} :
    accessedReg off width = some r ↔ width = .word ∧ regAt off = some r := by
  cases width <;> simp [accessedReg]

/-- No register read has a side effect (R38). -/
theorem hostRegRead_aligned {off : Byte} {r : Reg} (h : regAt off = some r) (s : State) :
    hostRegRead off .word s = .next { s with busData := readReg r s } := by
  simp [hostRegRead, accessedReg, h]

theorem hostRegWrite_cmd {off : Byte} (h : regAt off = some .cmd) (v : Word) (s : State) :
    hostRegWrite off .word v s = cmdWrite v s := by
  simp [hostRegWrite, accessedReg, h]

theorem hostRegWrite_aligned {off : Byte} {r : Reg} (h : regAt off = some r) (hr : r ≠ .cmd) (v : Word) (s : State) :
    hostRegWrite off .word v s = .next (writeReg r v s) := by
  cases r with
  | cmd => exact absurd rfl hr
  | _ => simp [hostRegWrite, accessedReg, h]

theorem hostRegWrite_ignored {off : Byte} {r : Reg} (h : regAt off = some r) (hr : r.ignoresWrites = true) (v : Word)
    (s : State) : hostRegWrite off .word v s = .next s := by
  rw [hostRegWrite_aligned h (by rintro rfl; cases hr), writeReg_ignored hr]

theorem hostRegWrite_busy {off : Byte} {r : Reg} (h : regAt off = some r) {s : State} (hb : s.status.busy = true)
    (v : Word) : hostRegWrite off .word v s = .next s := by
  by_cases hr : r = .cmd
  · subst hr; rw [hostRegWrite_cmd h, cmdWrite_busy hb]
  · rw [hostRegWrite_aligned h hr, writeReg_busy hb]

/-! ### The offsets of the registers (10_state.md R21) -/

theorem regAt_src_iff : ∀ {off : Byte}, regAt off = some .src ↔ off = 0x08 := by decide
theorem regAt_dst_iff : ∀ {off : Byte}, regAt off = some .dst ↔ off = 0x0C := by decide
theorem regAt_len_iff : ∀ {off : Byte}, regAt off = some .len ↔ off = 0x10 := by decide

theorem regAt_coef {n : Fin 9} {off : Byte} (h : off.toNat = 0x40 + 4 * n.val) : regAt off = some (.coef n) := by
  obtain rfl : off = BitVec.ofNat 8 (0x40 + 4 * n.val) := by rw [← h, BitVec.ofNat_toNat, BitVec.setWidth_eq]
  revert n
  decide

theorem regAt_reserved : ∀ {off : Byte}, off.toNat % 4 = 0 →
    (0x28 ≤ off.toNat ∧ off.toNat ≤ 0x3C ∨ 0x64 ≤ off.toNat ∧ off.toNat ≤ 0xFC) → regAt off = some .reserved := by
  decide

/-- The offsets of the read-only registers (R38). -/
theorem regAt_readOnly {off : Byte}
    (h : off.toNat ∈ [0x00, 0x04, 0x18, 0x1C, 0x20, 0x24, 0x40, 0x44, 0x48, 0x4C, 0x50, 0x54, 0x58, 0x5C, 0x60]) :
    ∃ r, regAt off = some r ∧ r.ignoresWrites = true := by
  rw [← Option.any_eq_true]
  revert off
  decide

/-! ### The hardwired words (10_state.md R23, R34, R35) -/

theorem capWord_fields (p : Params) :
    (capWord p).extractLsb' 0 1 = bit p.vecPresent ∧ (capWord p).extractLsb' 1 1 = bit (p.laneMode == .tolerant) ∧
    (capWord p).extractLsb' 2 6 = 0 ∧ (capWord p).extractLsb' 8 8 = 8 ∧ (capWord p).extractLsb' 16 8 = 3 ∧
    (capWord p).extractLsb' 24 8 = 0 := by
  unfold capWord
  generalize bit p.vecPresent = vec, bit (p.laneMode == .tolerant) = tol
  revert vec tol
  decide

theorem capWord_default {p : Params} (hv : p.vecPresent = true) (hm : p.laneMode = .exact) :
    capWord p = 0x00030801 := by
  rw [capWord, hv, hm]; decide

theorem imgDimWord_fields (p : Params) :
    (imgDimWord p).extractLsb' 0 16 = p.imgW ∧ (imgDimWord p).extractLsb' 16 16 = p.imgH := by
  constructor
  · exact (BitVec.extractLsb'_append_eq_of_add_le (xhi := p.imgH) (xlo := p.imgW) le_rfl).trans BitVec.extractLsb'_eq_self
  · exact (BitVec.extractLsb'_append_eq_of_le (xhi := p.imgH) (xlo := p.imgW) le_rfl).trans BitVec.extractLsb'_eq_self

/-- The coefficient ROM as `s32` words (R35). -/
theorem coefWord_eq : ∀ n : Fin 9, coefWord n =
    #v[0xFFFFFD84, 0xFFFFFE8F, 0x0000082C, 0x000000A2, 0x00000523, 0xFFFFFE11, 0x00000BC9, 0xFFFFFD68, 0xFFFFFF75][n] := by
  decide

/-! ### STATUS (10_state.md R28 to R31) -/

theorem Status.word_fields (x : Status) :
    x.word.extractLsb' 0 1 = bit x.busy ∧ x.word.extractLsb' 1 1 = bit x.done ∧ x.word.extractLsb' 2 2 = 0 ∧
    x.word.extractLsb' 4 4 = x.errField ∧ x.word.extractLsb' 8 24 = 0 := by
  unfold Status.word
  generalize bit x.busy = busy, bit x.done = done, x.errField = err
  revert busy done err
  decide

/-- The STATUS of a legal state is one of the four combinations of R28. -/
theorem LegalState.status_cases {s : State} (h : LegalState s) :
    s.status = .cleared ∨ s.status = .running ∨ s.status = .completed ∨ ∃ e, s.status = .failed e := by
  rcases h.report with h | ⟨h, _⟩ | h | ⟨e, h⟩
  · exact .inl h.status
  · exact .inr (.inl h)
  · exact .inr (.inr (.inl h.status))
  · exact .inr (.inr (.inr ⟨e, h.status⟩))

theorem LegalState.status_word {s : State} (h : LegalState s) :
    s.status.word ∈ ([0x00, 0x01, 0x02, 0x10, 0x20, 0x30, 0x40] : List Word) := by
  rcases h.status_cases with h | h | h | ⟨e, h⟩ <;> rw [h]
  · decide
  · decide
  · decide
  · clear h; cases e <;> decide

/-! ### The invariant -/

/-- Memory, what is pending, what the host last read, the race mark and the draw counter are free to change under the
invariant, as long as the memory stays canonical. -/
theorem LegalState.with_host_fields {s : State} (h : LegalState s) {m : Memory} (hm : m.wf = true) (p : List Event)
    (b : Word) (r : Bool) (d : Nat) :
    LegalState { s with mem := m, pending := p, busData := b, raced := r, draws := d } :=
  h.congr hm rfl rfl rfl rfl rfl rfl rfl

theorem resetWith_legal (p : Params) : LegalState (State.resetWith p) :=
  ⟨Memory.wf_reset p, .inl ⟨rfl, rfl, rfl, rfl⟩⟩

theorem resetUnit_legal {s : State} (h : LegalState s) : LegalState (resetUnit s) :=
  (resetWith_legal s.cfg).congr (unspecify_wf h.memory _ _) rfl rfl rfl rfl rfl rfl rfl

theorem writeReg_legal {s : State} (h : LegalState s) (r : Reg) (v : Word) : LegalState (writeReg r v s) := by
  rcases writeReg_cases r v s with he | ⟨hb, ⟨_, he⟩ | ⟨_, he⟩ | ⟨_, he⟩⟩ <;> rw [he]
  · exact h
  all_goals exact h.congr_idle hb rfl rfl rfl rfl rfl rfl

theorem clearReport_legal {s : State} (h : LegalState s) (hb : s.status.busy = false) : LegalState (clearReport s) :=
  ⟨h.memory, .inl ⟨rfl, h.idle_mode hb, rfl, rfl⟩⟩

theorem cmdWrite_legal {w : Word} {s t : State} (hi : LegalState s) (h : cmdWrite w s = .next t) : LegalState t := by
  rcases cmdWrite_next h with rfl | ⟨hb, rfl | ⟨e, he, rfl⟩ | ⟨path, n, pf, hr, rfl⟩⟩
  · exact hi
  · exact clearReport_legal hi hb
  · exact fail_inv hi.memory he
  · exact acceptRun_inv hi.memory hr

/-- Every event keeps a legal state legal. -/
theorem handle_legal {e : Event} {s t : State} (hi : LegalState s) (h : handle e s = .next t) : LegalState t := by
  cases e with
  | regRead off width =>
    obtain ⟨_, _, rfl⟩ := hostRegRead_next h
    exact hi.with_host_fields hi.memory _ _ _ _
  | regWrite off width v =>
    rcases hostRegWrite_next h with ⟨_, hc⟩ | ⟨r, _, _, rfl⟩
    · exact cmdWrite_legal hi hc
    · exact writeReg_legal hi r v
  | poll off mask v =>
    obtain ⟨_, _, ⟨_, rfl⟩ | ⟨_, rfl⟩⟩ := hostPoll_next h <;> exact hi.with_host_fields hi.memory _ _ _ _
  | dataRead a =>
    obtain ⟨_, ⟨_, _, rfl⟩ | ⟨_, rfl⟩⟩ := hostDataRead_next h <;> exact hi.with_host_fields hi.memory _ _ _ _
  | dataWrite a v =>
    have hm := Memory.wf_write hi.memory a.toNat v
    obtain ⟨_, ⟨_, _, rfl⟩ | ⟨_, rfl⟩⟩ := hostDataWrite_next h
    · exact hi.with_host_fields (Memory.wf_writeAll _ hm) _ _ _ _
    · exact hi.with_host_fields hm _ _ _ _
  | unitTurn =>
    obtain rfl := Host.Outcome.next.inj h
    exact unitStep_legal hi
  | reset =>
    obtain rfl := Host.Outcome.next.inj h
    exact resetUnit_legal hi

/-- Settles O47: the reset state is idle with nothing to report and its memory is empty. -/
theorem invariantAtReset : Obligations.InvariantAtReset :=
  ⟨resetWith_legal, resetWith_legal platform⟩

/-- Settles O48: a step is the unit's turn or a pending event, and both keep a legal state legal; taking the event from
`pending` does too. -/
theorem everyStepKeepsTheInvariant : Obligations.EveryStepKeepsTheInvariant := by
  intro s t hi h
  cases hp : s.pending with
  | nil =>
    rw [step_unit hp] at h
    obtain rfl := Host.Outcome.next.inj h
    exact unitStep_legal hi
  | cons e rest =>
    rw [step_event hp] at h
    exact handle_legal (hi.with_host_fields hi.memory _ _ _ _) h

/-- Settles O17: the fields of the word of STATUS, and its four legal combinations. -/
theorem statusCombinations : Obligations.StatusCombinations := by
  intro s v
  obtain ⟨hbusy, hdone, hlow, herr, hhigh⟩ := s.status.word_fields
  refine ⟨hostRegWrite_ignored (r := .status) rfl rfl v s, hostRegRead_aligned (r := .status) rfl s, hbusy, hdone, hlow, ?_,
    hhigh, fun h => h.status_word⟩
  refine herr.trans ?_
  unfold Status.errField
  cases s.status.err with
  | none => rfl
  | some e => cases e <;> rfl

/-! ### The operands (10_state.md R24 to R26, R37) -/

/-- SRC, DST and LEN are the same in both states. -/
structure SameOperands (s t : State) : Prop where
  src : t.src = s.src
  dst : t.dst = s.dst
  len : t.len = s.len

theorem cmdWrite_sameOperands {w : Word} {s t : State} (h : cmdWrite w s = .next t) : SameOperands s t := by
  rcases cmdWrite_next h with rfl | ⟨_, rfl | ⟨e, _, rfl⟩ | ⟨path, n, pf, _, rfl⟩⟩ <;> exact ⟨rfl, rfl, rfl⟩

theorem unitStep_sameOperands (s : State) : SameOperands s (unitStep s) :=
  ⟨(unitStep_frame s).src, (unitStep_frame s).dst, (unitStep_frame s).len⟩

/-- The host wrote `v` to the offset `off` while idle, and `t` is `s` with exactly that operand changed. -/
def OperandWritten (off : Byte) (v : Word) (s t : State) : Prop :=
  s.status.busy = false ∧
    ((off = 0x08 ∧ t = { s with src := v }) ∨ (off = 0x0C ∧ t = { s with dst := v }) ∨
      (off = 0x10 ∧ t = { s with len := v }))

theorem writeReg_operands {off : Byte} {r : Reg} (h : regAt off = some r) (v : Word) (s : State) :
    SameOperands s (writeReg r v s) ∨ OperandWritten off v s (writeReg r v s) := by
  rcases writeReg_cases r v s with he | ⟨hb, ⟨rfl, he⟩ | ⟨rfl, he⟩ | ⟨rfl, he⟩⟩ <;> rw [he]
  · exact .inl ⟨rfl, rfl, rfl⟩
  · exact .inr ⟨hb, .inl ⟨regAt_src_iff.1 h, rfl⟩⟩
  · exact .inr ⟨hb, .inr (.inl ⟨regAt_dst_iff.1 h, rfl⟩)⟩
  · exact .inr ⟨hb, .inr (.inr ⟨regAt_len_iff.1 h, rfl⟩)⟩

/-- Every event but a reset keeps the operands, or is an aligned write of one of them while idle. -/
theorem handle_operands {e : Event} {s t : State} (he : e ≠ .reset) (h : handle e s = .next t) :
    SameOperands s t ∨ ∃ off v, e = .regWrite off .word v ∧ OperandWritten off v s t := by
  cases e with
  | regRead off width =>
    obtain ⟨_, _, rfl⟩ := hostRegRead_next h
    exact .inl ⟨rfl, rfl, rfl⟩
  | regWrite off width v =>
    rcases hostRegWrite_next h with ⟨_, hc⟩ | ⟨r, hr, _, rfl⟩
    · exact .inl (cmdWrite_sameOperands hc)
    · obtain ⟨rfl, hoff⟩ := accessedReg_eq_some.1 hr
      exact (writeReg_operands hoff v s).imp_right fun hw => ⟨off, v, rfl, hw⟩
  | poll off mask v =>
    obtain ⟨_, _, ⟨_, rfl⟩ | ⟨_, rfl⟩⟩ := hostPoll_next h <;> exact .inl ⟨rfl, rfl, rfl⟩
  | dataRead a =>
    obtain ⟨_, ⟨_, _, rfl⟩ | ⟨_, rfl⟩⟩ := hostDataRead_next h <;> exact .inl ⟨rfl, rfl, rfl⟩
  | dataWrite a v =>
    obtain ⟨_, ⟨_, _, rfl⟩ | ⟨_, rfl⟩⟩ := hostDataWrite_next h <;> exact .inl ⟨rfl, rfl, rfl⟩
  | unitTurn =>
    obtain rfl := Host.Outcome.next.inj h
    exact .inl (unitStep_sameOperands s)
  | reset => exact absurd rfl he

/-- A step that is no reset keeps the operands, or takes an aligned write of one of them from `pending` while idle. -/
theorem step_operands {s t : State} (h : step s = .next t) (hreset : ∀ rest, s.pending ≠ .reset :: rest) :
    SameOperands s t ∨ ∃ off v rest, s.pending = .regWrite off .word v :: rest ∧
      OperandWritten off v { s with pending := rest } t := by
  cases hp : s.pending with
  | nil =>
    rw [step_unit hp] at h
    obtain rfl := Host.Outcome.next.inj h
    exact .inl (unitStep_sameOperands s)
  | cons e rest =>
    rw [step_event hp] at h
    have he : e ≠ .reset := by rintro rfl; exact hreset rest hp
    rcases handle_operands he h with ⟨h1, h2, h3⟩ | ⟨off, v, rfl, hw⟩
    · exact .inl ⟨h1, h2, h3⟩
    · exact .inr ⟨off, v, rest, rfl, hw⟩

/-- Settles O50: `step_operands` gives the one write that can change an operand. -/
theorem onlyTheHostWritesOperands : Obligations.OnlyTheHostWritesOperands := by
  intro s t h hreset
  rcases step_operands h hreset with hsame | ⟨off, v, rest, hp, hb, hw⟩
  · exact ⟨fun hne => absurd hsame.src hne, fun hne => absurd hsame.dst hne, fun hne => absurd hsame.len hne⟩
  · rcases hw with ⟨rfl, rfl⟩ | ⟨rfl, rfl⟩ | ⟨rfl, rfl⟩
    · exact ⟨fun _ => ⟨hb, rest, hp⟩, fun hne => absurd rfl hne, fun hne => absurd rfl hne⟩
    · exact ⟨fun hne => absurd rfl hne, fun _ => ⟨hb, rest, hp⟩, fun hne => absurd rfl hne⟩
    · exact ⟨fun hne => absurd rfl hne, fun hne => absurd rfl hne, fun _ => ⟨hb, rest, hp⟩⟩

/-! ### The statements about single registers -/

/-- Settles O7: every field of the reset state is the table's, and CAP, IMGDIM and COEF0 to COEF8 follow from the
parameters and the ROM. -/
theorem resetValues : Obligations.ResetValues := by
  intro p
  have hstatus : Status.cleared.word = 0 := by decide
  exact ⟨rfl, rfl, capWord_default, rfl, rfl, rfl, rfl, hstatus, rfl, rfl, rfl, coefWord_eq, rfl, rfl⟩

/-- Settles O8: the offset is COEF`n`'s, whose word is the ROM's. -/
theorem coefficientRegisters : Obligations.CoefficientRegisters := by
  intro n off v s hoff
  have hr := regAt_coef hoff
  refine ⟨?_, hostRegWrite_ignored hr rfl v s⟩
  rw [hostRegRead_aligned hr, ← coefWord_eq n]
  rfl

/-- Settles O9: ID is hardwired. -/
theorem idRegister : Obligations.IdRegister := fun v s =>
  ⟨hostRegRead_aligned (r := .id) rfl s, by decide, hostRegWrite_ignored (r := .id) rfl rfl v s⟩

/-- Settles O10: the fields of `capWord` are `capWord_fields`. -/
theorem capRegister : Obligations.CapRegister := by
  intro v s
  obtain ⟨hvec, htol, hlow, hlanes, hbpp, hhigh⟩ := capWord_fields s.cfg
  refine ⟨hostRegRead_aligned (r := .cap) rfl s, hvec, ?_, hlow, hlanes, hbpp, hhigh, capWord_default,
    hostRegWrite_ignored (r := .cap) rfl rfl v s⟩
  rw [htol]
  cases s.cfg.laneMode <;> rfl

/-- Settles O11: the halves of `imgDimWord` are `imgDimWord_fields`. -/
theorem imageDimensionRegister : Obligations.ImageDimensionRegister := by
  intro v s
  obtain ⟨hw, hh⟩ := imgDimWord_fields s.cfg
  exact ⟨hostRegRead_aligned (r := .imgDim) rfl s, hw, hh, hostRegWrite_ignored (r := .imgDim) rfl rfl v s⟩

/-- Settles O12: each offset reaches its register, and while idle an operand takes the value written. -/
theorem storedRegistersReadBack : Obligations.StoredRegistersReadBack := by
  intro s v
  refine ⟨hostRegRead_aligned (r := .src) rfl s, hostRegRead_aligned (r := .dst) rfl s,
    hostRegRead_aligned (r := .len) rfl s, hostRegRead_aligned (r := .cmd) rfl s,
    hostRegRead_aligned (r := .progress) rfl s, hostRegRead_aligned (r := .errAddr) rfl s, fun hb => ⟨?_, ?_, ?_⟩⟩
  · rw [hostRegWrite_aligned (r := .src) rfl (by decide)]; simp [writeReg, hb]
  · rw [hostRegWrite_aligned (r := .dst) rfl (by decide)]; simp [writeReg, hb]
  · rw [hostRegWrite_aligned (r := .len) rfl (by decide)]; simp [writeReg, hb]

/-- Settles O13: the reserved offsets reach `Reg.reserved`, and the reserved bits are fields of CAP and STATUS. -/
theorem reservedOffsetsAndBits : Obligations.ReservedOffsetsAndBits := by
  intro off v s
  obtain ⟨_, _, hcapLow, _, _, hcapHigh⟩ := capWord_fields s.cfg
  obtain ⟨_, _, hstatusLow, _, hstatusHigh⟩ := s.status.word_fields
  refine ⟨fun halign hrange => ?_, hcapLow, hcapHigh, hstatusLow, hstatusHigh,
    hostRegWrite_ignored (r := .cap) rfl rfl v s, hostRegWrite_ignored (r := .status) rfl rfl v s⟩
  have hr := regAt_reserved halign hrange
  exact ⟨hostRegRead_aligned hr s, hostRegWrite_ignored hr rfl v s⟩

/-- Settles O14: while busy a register write is dropped, a command among them; a read never has a side effect. -/
theorem busyDropsRegisterWrites : Obligations.BusyDropsRegisterWrites := fun s _off v _r hb hr =>
  ⟨hostRegWrite_busy hr hb v, hostRegRead_aligned hr s⟩

/-- Settles O15: the fifteen offsets reach registers that ignore writes; a read never has a side effect. -/
theorem readOnlyRegistersIgnoreWrites : Obligations.ReadOnlyRegistersIgnoreWrites := by
  intro s v
  refine ⟨fun off hoff => ?_, fun off r hr => hostRegRead_aligned hr s⟩
  obtain ⟨r, hr, hro⟩ := regAt_readOnly hoff
  exact hostRegWrite_ignored hr hro v s

end Sys2Proof.Machine
end


section
/-! Who reads and writes the data space, and which addresses are memory at all: the statements of 20_memory.md. -/

namespace Sys2Proof.Machine

/-! ### Commands and memory (20_memory.md R62, 60_exceptions.md R218) -/

/-- `s` with the data space `m`. -/
def State.withMem (s : State) (m : Memory) : State := { s with mem := m }

/-- `f` neither reads nor writes memory. -/
def IgnoresMemory (f : State → State) : Prop := ∀ (s : State) (m : Memory), f (s.withMem m) = (f s).withMem m

/-- Acceptance decides on SRC, DST and the request alone (44_dispatch_control.md R190). -/
theorem requestRun_ignoresMemory {r : State → RunRequest} (hr : ∀ s m, r (s.withMem m) = r s) :
    IgnoresMemory fun s => requestRun (r s) s := by
  intro s m
  have hsrc : (s.withMem m).src = s.src := rfl
  have hdst : (s.withMem m).dst = s.dst := rfl
  simp only [requestRun, hr, hsrc, hdst]
  cases rejection (r s).path (r s).length s.src.toNat s.dst.toNat <;> rfl

theorem requestBulk_ignoresMemory (pf : Bool) : IgnoresMemory (requestBulk pf) := by
  intro s m
  unfold requestBulk
  rw [show (s.withMem m).cfg = s.cfg from rfl]
  split
  · exact requestRun_ignoresMemory (r := fun s => ⟨.bulk, s.len.toNat, pf⟩) (fun _ _ => rfl) s m
  · rfl

/-- Every command is an operation, taken while idle, that ignores memory. -/
theorem exec_whenIdle (i : Instr) : ∃ f, IgnoresMemory f ∧ ∀ s, exec i s = whenIdle f s := by
  cases i with
  | nop => exact ⟨fun s => s, fun _ _ => rfl, fun _ => rfl⟩
  | scalar =>
    exact ⟨fun s => requestRun ⟨.scalar, s.len.toNat, false⟩ s, requestRun_ignoresMemory fun _ _ => rfl, fun _ => rfl⟩
  | bulk => exact ⟨requestBulk false, requestBulk_ignoresMemory false, fun _ => rfl⟩
  | bulkPf => exact ⟨requestBulk true, requestBulk_ignoresMemory true, fun _ => rfl⟩
  | wb => exact ⟨fun s => requestRun (wbSelect s.cfg false) s, requestRun_ignoresMemory fun _ _ => rfl, fun _ => rfl⟩
  | wbPf => exact ⟨fun s => requestRun (wbSelect s.cfg true) s, requestRun_ignoresMemory fun _ _ => rfl, fun _ => rfl⟩
  | clear => exact ⟨clearReport, fun _ _ => rfl, fun _ => rfl⟩

/-- What a command does does not depend on memory. -/
theorem exec_withMem {i : Instr} {s t : State} (h : exec i s = .next t) (m : Memory) :
    exec i (s.withMem m) = .next (t.withMem m) := by
  obtain ⟨f, hf, he⟩ := exec_whenIdle i
  rw [he] at h ⊢
  cases hb : s.status.busy with
  | true =>
    obtain rfl := Host.Outcome.next.inj ((whenIdle_busy hb).symm.trans h)
    exact whenIdle_busy hb
  | false =>
    obtain rfl := Host.Outcome.next.inj ((whenIdle_idle hb).symm.trans h)
    rw [whenIdle_idle (s := s.withMem m) hb, hf]

/-- Settles O29: the four outcomes of a command leave the listed fields alone, and none of them looks at memory
(`exec_withMem`). -/
theorem commandsTouchNoData : Obligations.CommandsTouchNoData := by
  intro i s m
  rcases exec_cases i s with ⟨_, h⟩ | ⟨_, ⟨_, h⟩ | ⟨_, h⟩ | ⟨_, _, h⟩ | ⟨_, _, _, _, h⟩⟩ <;>
    exact ⟨_, h, exec_withMem h m, rfl, rfl, rfl, rfl, rfl, rfl, rfl⟩

/-! ### The bytes a step can change (20_memory.md R62, R68; 70_reset_and_hazards.md R241) -/

theorem stepBytes_idle {s : State} (h : s.seq.mode = .idle) : stepBytes s = 0 := by
  simp [stepBytes, h]

theorem stepBytes_run {path : Path} {s : State} (h : s.seq.mode = path.mode) : stepBytes s = path.granularity := by
  cases path <;> simp [stepBytes, h, Path.mode, Path.granularity]

/-- `x` is a byte of the destination of a run in progress. -/
def InRunDestination (s : State) (x : Nat) : Prop :=
  s.status.busy = true ∧ s.seq.dst.toNat ≤ x ∧ x < s.seq.dst.toNat + s.seq.len.toNat

/-- The destination bytes of the step in progress are bytes of the run's destination. -/
theorem LegalState.outside_step {s : State} (hi : LegalState s) {x : Nat} (hx : ¬InRunDestination s x) :
    x < stepDst (stepBytes s) s ∨ stepDst (stepBytes s) s + stepBytes s ≤ x := by
  rcases hi.busy_cases with ⟨hb, _, path, hrun⟩ | ⟨_, hm⟩
  · rw [stepBytes_run hrun.mode]
    have hfits := hrun.dst_step_fits
    have hbase : s.seq.dst.toNat ≤ stepDst path.granularity s := Nat.le_add_right _ _
    have hout : ¬(s.seq.dst.toNat ≤ x ∧ x < s.seq.dst.toNat + s.seq.len.toNat) := fun h => hx ⟨hb, h⟩
    omega
  · rw [stepBytes_idle hm]
    omega

/-- A turn of the unit changes only destination bytes of the step in progress. -/
theorem unitStep_read_other {s : State} (hi : LegalState s) {x : Nat}
    (hx : x < stepDst (stepBytes s) s ∨ stepDst (stepBytes s) s + stepBytes s ≤ x) :
    (unitStep s).mem.read x = s.mem.read x := by
  rcases hi.busy_cases with ⟨_, _, path, hrun⟩ | ⟨_, hm⟩
  · rw [stepBytes_run hrun.mode] at hx
    exact unitStep_mem hrun.mode hi.memory hx
  · rw [unitStep_idle hm]

/-- A reset changes only destination bytes of the step in progress (70_reset_and_hazards.md R241). -/
theorem resetUnit_read_other {s : State} (hm : s.mem.wf = true) {x : Nat}
    (hx : x < stepDst (stepBytes s) s ∨ stepDst (stepBytes s) s + stepBytes s ≤ x) :
    (resetUnit s).mem.read x = s.mem.read x :=
  unspecify_read_other hm hx

@[simp] theorem writeReg_mem (r : Reg) (v : Word) (s : State) : (writeReg r v s).mem = s.mem := by
  rcases writeReg_cases r v s with h | ⟨_, ⟨_, h⟩ | ⟨_, h⟩ | ⟨_, h⟩⟩ <;> rw [h]

theorem cmdWrite_mem {w : Word} {s t : State} (h : cmdWrite w s = .next t) : t.mem = s.mem := by
  rcases cmdWrite_next h with rfl | ⟨_, rfl | ⟨_, _, rfl⟩ | ⟨_, _, _, _, rfl⟩⟩ <;> rfl

/-- A host write that races with the run changes its own byte and bytes of the destination (20_memory.md R74). -/
theorem unspecify_write_read {s : State} (hm : s.mem.wf = true) {base n x : Nat} (hx : x < base ∨ base + n ≤ x)
    (a : Word) (v : Byte) :
    (unspecify base n { s with mem := s.mem.write a.toNat v }).mem.read x = if x = a.toNat then v else s.mem.read x := by
  rw [unspecify_read_other (Memory.wf_write hm a.toNat v) hx]
  exact Memory.read_write hm a.isLt v x

/-- The byte at `x` is the host's to write by the event `e`, or a destination byte of the run in progress. -/
def MayChange (e : Event) (s : State) (x : Nat) : Prop :=
  InRunDestination s x ∨ ∃ (a : Word) (v : Byte), e = .dataWrite a v ∧ a.toNat = x

/-- Every event leaves alone the bytes it may not change. -/
theorem handle_mem {e : Event} {s t : State} (hi : LegalState s) (h : handle e s = .next t) {x : Nat}
    (hx : ¬MayChange e s x) : t.mem.read x = s.mem.read x := by
  obtain ⟨hdst, hwrite⟩ := not_or.1 hx
  cases e with
  | regRead off width =>
    obtain ⟨_, _, rfl⟩ := hostRegRead_next h
    rfl
  | regWrite off width v =>
    rcases hostRegWrite_next h with ⟨_, hc⟩ | ⟨r, _, _, rfl⟩
    · rw [cmdWrite_mem hc]
    · rw [writeReg_mem]
  | poll off mask v =>
    obtain ⟨_, _, ⟨_, rfl⟩ | ⟨_, rfl⟩⟩ := hostPoll_next h <;> rfl
  | dataRead a =>
    obtain ⟨_, ⟨_, _, rfl⟩ | ⟨_, rfl⟩⟩ := hostDataRead_next h <;> rfl
  | dataWrite a v =>
    have hne : x ≠ a.toNat := fun he => hwrite ⟨a, v, rfl, he.symm⟩
    obtain ⟨_, ⟨hb, _, rfl⟩ | ⟨_, rfl⟩⟩ := hostDataWrite_next h
    · have hout : x < s.seq.dst.toNat ∨ s.seq.dst.toNat + s.seq.len.toNat ≤ x := by
        by_contra hc
        exact hdst ⟨hb, by omega, by omega⟩
      exact (unspecify_write_read hi.memory hout a v).trans (if_neg hne)
    · exact Memory.read_write_other hi.memory hne v
  | unitTurn =>
    obtain rfl := Host.Outcome.next.inj h
    exact unitStep_read_other hi (hi.outside_step hdst)
  | reset =>
    obtain rfl := Host.Outcome.next.inj h
    exact resetUnit_read_other hi.memory (hi.outside_step hdst)

/-- Settles O51: a step is a pending event or, with none pending, the unit's turn, and each changes only the bytes it may
(`handle_mem`). -/
theorem onlyTheDestinationChanges : Obligations.OnlyTheDestinationChanges := by
  intro s t x hi h hne
  cases hp : s.pending with
  | nil =>
    rw [step_unit hp] at h
    have hmay : MayChange .unitTurn s x := by_contra fun hc => hne (handle_mem (e := .unitTurn) hi h hc)
    exact .inl (hmay.resolve_right (by rintro ⟨_, _, he, _⟩; cases he))
  | cons e rest =>
    rw [step_event hp] at h
    have hi' : LegalState { s with pending := rest } := hi.with_host_fields hi.memory _ _ _ _
    have hmay : MayChange e { s with pending := rest } x := by_contra fun hc => hne (handle_mem hi' h hc)
    rcases hmay with hdst | ⟨a, v, rfl, ha⟩
    · exact .inl hdst
    · exact .inr ⟨a, v, rest, rfl, ha⟩

/-! ### Host accesses to data bytes (20_memory.md R73, R74) -/

theorem inSource_eq_true {s : State} {a : Nat} :
    inSource s a = true ↔ s.seq.src.toNat ≤ a ∧ a < s.seq.src.toNat + s.seq.len.toNat := by
  simp [inSource]

theorem inDestination_eq_true {s : State} {a : Nat} :
    inDestination s a = true ↔ s.seq.dst.toNat ≤ a ∧ a < s.seq.dst.toNat + s.seq.len.toNat := by
  simp [inDestination]

theorem inWindow_eq_true {p : Params} {a : Nat} : inWindow p a = true ↔ p.unitBase ≤ a ∧ a < p.unitBase + 256 := by
  simp [inWindow]

theorem inWindow_eq_false {p : Params} {a : Nat} : inWindow p a = false ↔ a < p.unitBase ∨ p.unitBase + 256 ≤ a := by
  rw [← Bool.not_eq_true, inWindow_eq_true]
  omega

theorem hostDataRead_plain {a : Word} {s : State} (hw : inWindow s.cfg a.toNat = false)
    (h : s.status.busy = false ∨ ¬inDestination s a.toNat = true) :
    hostDataRead a s = .next { s with busData := (s.mem.read a.toNat).setWidth 32 } := by
  rcases h with h | h <;> simp [hostDataRead, hw, h]

theorem hostDataRead_race {a : Word} {s : State} (hw : inWindow s.cfg a.toNat = false) (hb : s.status.busy = true)
    (h : inDestination s a.toNat = true) : hostDataRead a s =
      .next { s with busData := (Config.freeByte s.draws 0).setWidth 32, draws := s.draws + 1 } := by
  simp [hostDataRead, hw, hb, h]

theorem hostDataWrite_plain {a : Word} {s : State} (hw : inWindow s.cfg a.toNat = false)
    (h : s.status.busy = false ∨ ¬inSource s a.toNat = true ∧ ¬inDestination s a.toNat = true) (v : Byte) :
    hostDataWrite a v s = .next { s with mem := s.mem.write a.toNat v } := by
  rcases h with h | ⟨h1, h2⟩
  · simp [hostDataWrite, hw, h]
  · simp [hostDataWrite, hw, h1, h2]

theorem hostDataWrite_race {a : Word} {s : State} (hw : inWindow s.cfg a.toNat = false) (hb : s.status.busy = true)
    (h : inSource s a.toNat = true ∨ inDestination s a.toNat = true) (v : Byte) :
    hostDataWrite a v s = .next { unspecify s.seq.dst.toNat s.seq.len.toNat
      { s with mem := s.mem.write a.toNat v } with raced := true } := by
  simp [hostDataWrite, hw, hb, h]

/-- Settles O55: outside the window a host access is plain or a race with the run, and each of the four cases is one
equation of the access. -/
theorem hostDataAccesses : Obligations.HostDataAccesses := by
  intro s a v hm hout
  dsimp only
  have hw := inWindow_eq_false.2 hout
  simp only [← inSource_eq_true, ← inDestination_eq_true]
  refine ⟨hostDataRead_plain hw, fun hb hd => ⟨_, hostDataRead_race hw hb hd, rfl⟩,
    fun h => ⟨_, hostDataWrite_plain hw h v, rfl, Memory.read_write hm a.isLt v⟩,
    fun hb h => ⟨_, hostDataWrite_race hw hb h v, rfl, fun x hx => ?_⟩⟩
  rw [inDestination_eq_true] at hx
  exact unspecify_write_read hm (by omega) a v

/-! ### The register window (20_memory.md R63) -/

theorem memOK_window {p : Params} {a : Nat} (h : inWindow p a = true) : memOK p a = false := by
  simp [memOK, h]

theorem memOK_outside_window {p : Params} {a : Nat} (hlt : a < addressLimit) (h : inWindow p a = false) :
    memOK p a = true ↔ ∃ r, r ∈ p.memMap ∧ r.base ≤ a ∧ a < r.base + r.size := by
  simp [memOK, hlt, h]

/-- A step of a run with an access that fails ends in BusError (60_exceptions.md R215, R219). -/
theorem unitStep_busError {path : Path} {s : State} (hmode : s.seq.mode = path.mode)
    (h : ∃ j, j < path.granularity ∧ (memOK s.cfg (stepSrc path.granularity s + j) = false ∨
      memOK s.cfg (stepDst path.granularity s + j) = false)) :
    (unitStep s).status = .failed .busError := by
  rcases unitStep_cases hmode with ⟨_, he⟩ | ⟨_, _, u, _, he⟩ | ⟨hr, hw, _⟩
  · rw [he, busError_status]
  · rw [he, busError_status]
  · obtain ⟨j, hj, hf | hf⟩ := h
    · simp [failing_range_eq_nil.1 hr j hj] at hf
    · simp [failing_range_eq_nil.1 hw j hj] at hf

/-- After a BusError, ERR_ADDR is an address that is not `MemOK` (R220). -/
theorem LegalState.errAddr_of_busError {s : State} (h : LegalState s) (hs : s.status = .failed .busError) :
    memOK s.cfg s.errAddr.toNat = false := by
  rcases h.report with hr | ⟨hr, _⟩ | hr | ⟨e, hr⟩
  · exact absurd (hs.symm.trans hr.status) (by decide)
  · exact absurd (hs.symm.trans hr) (by decide)
  · exact absurd (hs.symm.trans hr.status) (by decide)
  · obtain rfl : ErrorCode.busError = e := Option.some.inj (congrArg Status.err (hs.symm.trans hr.status))
    exact (hr.duringRun rfl).1

/-- Settles O57: `memOK` takes the window out of the platform's list, so a step over the window has a failing access, and
the invariant says what ERR_ADDR is after it. -/
theorem registerWindowIsNotMemory : Obligations.RegisterWindowIsNotMemory := by
  refine ⟨fun p a h => memOK_window (inWindow_eq_true.2 h),
    fun p a hlt h => memOK_outside_window hlt (inWindow_eq_false.2 h), ?_⟩
  rintro path s hi - hrun n ⟨j, hj, hwin⟩
  have hstatus := unitStep_busError hrun.mode ⟨j, hj, hwin.imp memOK_window memOK_window⟩
  refine ⟨hstatus, ?_⟩
  rw [← (unitStep_frame s).cfg]
  exact (unitStep_legal hi).errAddr_of_busError hstatus

end Sys2Proof.Machine
end


section
/-! The command word and its decoder, how a command reaches the unit, and the host accesses outside the contract: the
statements of 30_encoding.md. -/

namespace Sys2Proof

/-! ### The command word (30_encoding.md R82, R86 to R88) -/

/-- A word and its fields determine each other (R82). -/
theorem fieldsOf_eq_iff {w : Word} {f : CommandFields} : fieldsOf w = f ↔ w = f.word := by
  constructor
  · rintro rfl; exact (fieldsOf_word w).symm
  · rintro rfl; exact fieldsOf_fieldsWord f

/-- Settles O2: a word decodes by its fields, which give a command exactly when they are the command's (`decode_fields`),
and the word is the one its fields make. -/
theorem decodeIsInverseOfEncode : Obligations.DecodeIsInverseOfEncode := by
  intro w i
  calc decode w = .command i
    _ ↔ fieldsOf w = i.fields := decode_fields (fieldsOf w) i
    _ ↔ w = encode i := fieldsOf_eq_iff

@[simp] theorem decode_encode (i : Instr) : decode (encode i) = .command i :=
  (decodeIsInverseOfEncode (encode i) i).2 rfl

/-- Settles O3: the fields of a word are its three bit ranges, and `decode_illegal_fields` says which are illegal. -/
theorem illegalWordsAreExactlyThese : Obligations.IllegalWordsAreExactlyThese := fun w =>
  decode_illegal_fields (fieldsOf w)

/-- Settles O1: the seven words are those of the commands (`decode_encode`); the illegal ones are decoded field by field. -/
theorem tableWordsDecode : Obligations.TableWordsDecode :=
  ⟨decode_encode .nop, decode_encode .scalar, decode_encode .bulk, decode_encode .bulkPf, decode_encode .wb,
    decode_encode .wbPf, decode_encode .clear, by decide, by decide, by decide⟩

end Sys2Proof

namespace Sys2Proof.Machine

/-! ### How a command reaches the unit (30_encoding.md R93, log 5) -/

theorem cmdWrite_command {w : Word} {i : Instr} (h : decode w = .command i) (s : State) : cmdWrite w s = exec i s := by
  simp [cmdWrite, h]

/-- A pending write to CMD of a command's word is that command, on the state from which the write has been taken. -/
theorem step_command {s : State} {w : Word} {i : Instr} {rest : List Event}
    (hp : s.pending = .regWrite 0x14 .word w :: rest) (hw : decode w = .command i) :
    step s = exec i { s with pending := rest } := by
  calc step s = hostRegWrite 0x14 .word w { s with pending := rest } := step_event hp
    _ = cmdWrite w { s with pending := rest } := hostRegWrite_cmd rfl w _
    _ = exec i { s with pending := rest } := cmdWrite_command hw _

@[simp] theorem State.withFetchWord_pending (s : State) (w : Word) :
    (s.withFetchWord 32 w.toNat).pending = .regWrite 0x14 .word w :: s.pending := by
  simp only [State.withFetchWord, Nat.mod_eq_of_lt w.isLt, BitVec.ofNat_toNat, BitVec.setWidth_eq]

/-- Settles O5: `withFetchWord` puts the write to CMD in front of what is pending, and the step takes it away again. -/
theorem fetchWordRunsNext : Obligations.FetchWordRunsNext := fun s i =>
  step_command (s.withFetchWord_pending (encode i)) (decode_encode i)

/-! ### Host accesses outside the contract (30_encoding.md R80) -/

/-- Every aligned offset of the window has a register, a reserved one where the table names none (10_state.md R21). -/
theorem regAt_eq_none_iff {off : Byte} : regAt off = none ↔ off.toNat % 4 ≠ 0 := by
  unfold regAt
  split
  next h => exact iff_of_true rfl h
  next h => exact iff_of_false (Option.some_ne_none _) h

theorem accessedReg_eq_none_iff {off : Byte} {width : Width} :
    accessedReg off width = none ↔ width ≠ .word ∨ off.toNat % 4 ≠ 0 := by
  cases width with
  | word => exact regAt_eq_none_iff.trans (by simp)
  | half | byte => simp [accessedReg]

theorem hostRegRead_refused {off : Byte} {width : Width} (h : accessedReg off width = none) (s : State) :
    hostRegRead off width s = .refused .hostAccessOutsideContract := by
  simp [hostRegRead, h]

theorem hostRegWrite_refused {off : Byte} {width : Width} (h : accessedReg off width = none) (v : Word) (s : State) :
    hostRegWrite off width v s = .refused .hostAccessOutsideContract := by
  simp [hostRegWrite, h]

theorem hostPoll_refused {off : Byte} (h : regAt off = none) (mask v : Word) (s : State) :
    hostPoll off mask v s = .refused .hostAccessOutsideContract := by
  simp [hostPoll, h]

theorem hostDataRead_window {a : Word} {s : State} (h : inWindow s.cfg a.toNat = true) :
    hostDataRead a s = .refused .hostAccessOutsideContract := by
  simp [hostDataRead, h]

theorem hostDataWrite_window {a : Word} {s : State} (h : inWindow s.cfg a.toNat = true) (b : Byte) :
    hostDataWrite a b s = .refused .hostAccessOutsideContract := by
  simp [hostDataWrite, h]

/-- Settles O16: an access of another width or alignment reaches no register, and the register window is no data. -/
theorem otherHostAccessesAreRefused : Obligations.OtherHostAccessesAreRefused := by
  intro s off width v mask a b
  refine ⟨fun h => ?_, fun h => hostPoll_refused (regAt_eq_none_iff.2 h) mask v s, fun h => ?_⟩
  · have hr := accessedReg_eq_none_iff.2 h
    exact ⟨hostRegRead_refused hr s, hostRegWrite_refused hr v s⟩
  · have hw := inWindow_eq_true.2 h
    exact ⟨hostDataRead_window hw, hostDataWrite_window hw b⟩

/-! ### POLL (30_encoding.md R93) -/

theorem hostPoll_match {off : Byte} {r : Reg} {mask v : Word} {s : State} (hr : regAt off = some r)
    (h : readReg r s &&& mask = v) : hostPoll off mask v s = .next { s with busData := readReg r s } := by
  simp [hostPoll, hr, h]

theorem hostPoll_noMatch {off : Byte} {r : Reg} {mask v : Word} {s : State} (hr : regAt off = some r)
    (h : readReg r s &&& mask ≠ v) : hostPoll off mask v s =
      .next { s with busData := readReg r s, pending := .unitTurn :: .poll off mask v :: s.pending } := by
  simp [hostPoll, hr, h]

/-- What a register reads as does not depend on what is pending. -/
theorem readReg_pending (r : Reg) (s : State) (p : List Event) :
    readReg r { s with pending := p } = readReg r s := by
  cases r <;> rfl

/-- Settles O56: the step is the poll, taken from `pending`; its one read matches or puts it back behind a turn. -/
theorem pollReadsUntilItMatches : Obligations.PollReadsUntilItMatches := by
  intro s off mask v r rest hp hr
  have hstep : step s = hostPoll off mask v { s with pending := rest } := step_event hp
  rw [hstep, ← readReg_pending r s rest]
  exact ⟨hostPoll_match hr, hostPoll_noMatch hr⟩

end Sys2Proof.Machine
end


section
/-! The ranges and the worked values of the colour matrix, and its output positions: the statements of
40_color_matrix.md. -/

namespace Sys2Proof.Machine

/-! ### The ranges of the accumulators (40_color_matrix.md R106) -/

/-- A product of the datapath is least or greatest where its sample is 0 or 255, by the sign of the coefficient. -/
theorem product_mem_range (c : Int) (s : Byte) :
    min 0 (c * 255) ≤ c * s.toNat ∧ c * s.toNat ≤ max 0 (c * 255) := by
  have hs : (s.toNat : Int) ≤ 255 := by have := s.isLt; omega
  rcases le_total 0 c with hc | hc
  · exact ⟨(min_le_left _ _).trans (by positivity), (mul_le_mul_of_nonneg_left hs hc).trans (le_max_right _ _)⟩
  · exact ⟨(min_le_right _ _).trans (mul_le_mul_of_nonpos_left hs hc),
      (mul_nonpos_of_nonpos_of_nonneg hc (by positivity)).trans (le_max_left _ _)⟩

/-- R106's extremes of row `k`: its negative coefficients give the least value, its positive ones the greatest. -/
theorem rowAcc_mem_range (k : Fin 3) (s0 s1 s2 : Byte) :
    min 0 (coef k 0 * 255) + min 0 (coef k 1 * 255) + min 0 (coef k 2 * 255) ≤ rowAcc k s0 s1 s2 ∧
    rowAcc k s0 s1 s2 ≤ max 0 (coef k 0 * 255) + max 0 (coef k 1 * 255) + max 0 (coef k 2 * 255) := by
  obtain ⟨l0, u0⟩ := product_mem_range (coef k 0) s0
  obtain ⟨l1, u1⟩ := product_mem_range (coef k 1) s1
  obtain ⟨l2, u2⟩ := product_mem_range (coef k 2) s2
  exact ⟨add_le_add (add_le_add l0 l1) l2, add_le_add (add_le_add u0 u1) u2⟩

/-- Settles O32: the bounds are those of `rowAcc_mem_range` at the three rows; each is evaluated where it is reached. -/
theorem accumulatorRanges : Obligations.AccumulatorRanges :=
  ⟨fun s0 s1 s2 => ⟨rowAcc_mem_range 0 s0 s1 s2, rowAcc_mem_range 1 s0 s1 s2, rowAcc_mem_range 2 s0 s1 s2⟩,
    by decide, by decide, by decide, by decide, by decide, by decide⟩

/-! ### The worked values (40_color_matrix.md R107 to R110) -/

/-- Settles O33: the zero pixel is `cm_zero`; the other rows are evaluated. -/
theorem matrixWorkedValues : Obligations.MatrixWorkedValues :=
  ⟨cm_zero, by decide, by decide, by decide, by decide⟩

/-! ### The output positions (40_color_matrix.md R105) -/

/-- Settles O38: every `OUT_MAP` is onto the positions and one to one, and the default is the identity by definition. -/
theorem outMapIsAPermutation : Obligations.OutMapIsAPermutation := by
  refine ⟨fun m p => ?_, fun _ => rfl⟩
  obtain ⟨k, hk⟩ := outPosition_surjective m p
  exact ⟨k, hk, fun j hj => outPosition_injective m (hj.trans hk.symm)⟩

end Sys2Proof.Machine
end


section
/-! The saturating narrowing converter over the rationals, and its thresholds: the statements of
41_saturating_narrow.md. -/

namespace Sys2Proof.Machine

/-! ### The converter's value (41_saturating_narrow.md R121) -/

/-- `satn_toNat` as an integer: the clamp leaves nothing for `toNat` to cut off. -/
theorem satn_toNat_cast (a : Int) : ((satn a).toNat : Int) = min 255 (max 0 ((a + 500) / 1000)) := by
  rw [satn_toNat]
  omega

/-- The preimage of each output value, in the integer form. -/
theorem satn_eq_ofNat_iff (a : Int) {n : Nat} (hn : n ≤ 255) :
    satn a = BitVec.ofNat 8 n ↔ min 255 (max 0 ((a + 500) / 1000)) = (n : Int) := by
  rw [← satn_toNat_cast, Nat.cast_inj, BitVec.toNat_eq, BitVec.toNat_ofNat, Nat.mod_eq_of_lt (by omega)]

/-! ### Rounding to nearest, ties up (41_saturating_narrow.md R120) -/

/-- Rounding is monotone, so it may be done before a clamp whose ends are integers (R120 clamps first, R121 last). -/
theorem floor_clamp_add_half (l u : Int) (x : ℚ) :
    ⌊min (u : ℚ) (max l x) + 1 / 2⌋ = min u (max l ⌊x + 1 / 2⌋) := by
  have hmono : Monotone fun y : ℚ => ⌊y + 1 / 2⌋ := fun _ _ h => Int.floor_mono (by gcongr)
  have hint (i : Int) : ⌊(i : ℚ) + 1 / 2⌋ = i := by rw [Int.floor_intCast_add]; norm_num
  rw [hmono.map_min, hmono.map_max, hint, hint]

/-- `a/1000` rounded to nearest, ties up, is the floor division of R121. -/
theorem floor_milli_add_half (a : Int) : ⌊(a : ℚ) / 1000 + 1 / 2⌋ = (a + 500) / 1000 := by
  have hsum : (a : ℚ) / 1000 + 1 / 2 = ((a + 500 : Int) : ℚ) / (1000 : Nat) := by push_cast; ring
  rw [hsum, Rat.floor_intCast_div_natCast]; rfl

/-- Settles O30: the rounding goes inside the clamp, where it is the floor division of `satn_toNat_cast`. -/
theorem converterClampsThenRounds : Obligations.ConverterClampsThenRounds := by
  intro a
  have hclamp := floor_clamp_add_half 0 255 ((a : ℚ) / 1000)
  rw [floor_milli_add_half, ← satn_toNat_cast] at hclamp
  exact_mod_cast hclamp.symm

/-! ### The thresholds (41_saturating_narrow.md R124) -/

/-- The converter is monotone: floor division and both clamps are. -/
theorem satn_toNat_mono : Monotone fun a : Int => (satn a).toNat := by
  intro a b hab
  have hdiv : (a + 500) / 1000 ≤ (b + 500) / 1000 := Int.ediv_le_ediv (by decide) (by omega)
  rw [← Int.ofNat_le, satn_toNat_cast, satn_toNat_cast]
  gcongr

/-- Settles O31: monotone by `satn_toNat_mono`; each preimage is `satn_eq_ofNat_iff`, with the quotient solved for `a`. -/
theorem converterThresholds : Obligations.ConverterThresholds := by
  refine ⟨satn_toNat_mono, fun n a h1 h254 => ?_, fun a => ?_, fun a => ?_⟩
  · rw [satn_eq_ofNat_iff a (by omega)]; omega
  · refine (satn_eq_ofNat_iff a (n := 0) (by decide)).trans ?_; omega
  · refine (satn_eq_ofNat_iff a (n := 255) (by decide)).trans ?_; omega

end Sys2Proof.Machine
end


section
/-! The scalar corrector: acceptance of CM.SCALAR, its datapath, and what a step and a whole run of either path leave in the
buffer: the statements of 42_scalar_corrector.md. -/

namespace Sys2Proof.Machine

/-! ### Acceptance (42_scalar_corrector.md R140, 44_dispatch_control.md R190) -/

/-- A run whose operands pass the checks is accepted. -/
theorem requestRun_accepted {r : RunRequest} {s : State} (h : Acceptable r.path r.length s) :
    requestRun r s = acceptRun r.path r.length r.pf s := by
  simp [requestRun, h.rejection_none]

theorem exec_scalar_idle {s : State} (hb : s.status.busy = false) :
    exec .scalar s = .next (requestRun ⟨.scalar, s.len.toNat, false⟩ s) :=
  whenIdle_idle hb

/-- Settles O21: `requestRun_accepted`; the length latched in SEQ is the register LEN itself. -/
theorem scalarIsAccepted : Obligations.ScalarIsAccepted := by
  intro s hb hacc
  rw [exec_scalar_idle hb, requestRun_accepted hacc, acceptRun, BitVec.ofNat_toNat, BitVec.setWidth_eq]
  rfl

/-! ### The datapath (42_scalar_corrector.md R142) -/

/-- The accumulators of the scalar datapath are exact: none of them overflows. -/
theorem correct_acc_toInt (p : PixelRegs) (k : Fin 3) :
    ((correct p).acc[k]).toInt = rowAcc k p.sample[0] p.sample[1] p.sample[2] := by
  simp only [correct, Fin.getElem_fin, perRow_get, rowAcc_toInt]

/-- Settles O34: `rowAcc` is the combination of R103, and `cm` is the converter of it. -/
theorem scalarDatapathComputesTheMatrix : Obligations.ScalarDatapathComputesTheMatrix := by
  intro p k
  have hacc := correct_acc_toInt p k
  have hout := correct_out_get p k
  exact ⟨hacc, by rw [hacc, hout, cm], hout, correct_sample p⟩

/-! ### The end of a step (42_scalar_corrector.md R143, R144) -/

@[simp] theorem advance_idx (n : Nat) (s : State) :
    (advance n s).seq.idx = BitVec.ofNat 32 (s.seq.idx.toNat + 1) := by
  unfold advance; dsimp only; split <;> rfl

@[simp] theorem advance_progress (n : Nat) (s : State) :
    (advance n s).progress = BitVec.ofNat 32 (n * (s.seq.idx.toNat + 1)) := by
  unfold advance; dsimp only; split <;> rfl

/-- STATUS and SEQ.mode change only at the end of the last step. -/
theorem advance_report (n : Nat) (s : State) :
    if n * (s.seq.idx.toNat + 1) = s.seq.len.toNat
    then (advance n s).status = .completed ∧ (advance n s).seq.mode = .idle
    else (advance n s).status = s.status ∧ (advance n s).seq.mode = s.seq.mode := by
  split
  case isTrue hlast => rw [advance_last hlast]; exact ⟨rfl, rfl⟩
  case isFalse hmore => rw [advance_more hmore]; exact ⟨rfl, rfl⟩

/-! ### One step of a run -/

/-- With every access of the step `MemOK`, the unit's turn is the step's effect and its end. -/
theorem unitStep_of_memOK {path : Path} {s : State} (hmode : s.seq.mode = path.mode)
    (hok : ∀ j, j < path.granularity → memOK s.cfg (stepSrc path.granularity s + j) = true ∧
      memOK s.cfg (stepDst path.granularity s + j) = true) :
    ∃ w, StepEffect path s w ∧ unitStep s = advance path.granularity w := by
  have hreads := failing_range_eq_nil.2 fun j hj => (hok j hj).1
  have hwrites := failing_range_eq_nil.2 fun j hj => (hok j hj).2
  rcases unitStep_cases hmode with ⟨hne, _⟩ | ⟨_, hne, _⟩ | ⟨_, _, hw⟩
  · exact absurd hreads hne
  · exact absurd hwrites hne
  · exact hw

theorem LegalState.status_running {s : State} (h : LegalState s) (hb : s.status.busy = true) : s.status = .running :=
  (h.busyInv hb).1

/-- Settles O39: by `unitStep_of_memOK` the turn is the step's effect, which says what is written, and then `advance`,
which says how the report moves. -/
theorem runStepWritesItsPixels : Obligations.RunStepWritesItsPixels := by
  intro path s hi hb hrun n hok t
  obtain ⟨w, hw, ht⟩ := unitStep_of_memOK hrun.mode hok
  replace ht : t = advance n w := ht
  obtain ⟨hidx, hprog⟩ := hrun.next_fits
  have hfits : stepDst n s + n ≤ addressLimit := hrun.dst_step_fits.trans hrun.dstFits
  have hreport := advance_report n w
  rw [← ht, hw.seq, hw.status, hi.status_running hb, hrun.mode] at hreport
  refine ⟨fun hclean i hin k => ?_, fun a ha => ?_, ?_, ?_, ?_, ?_, unitStep_frame s, ?_⟩
  · rw [ht, advance_mem, hw.outputs hi.memory hclean hfits i hin k]
  · rw [ht, advance_mem, hw.outside hi.memory a ha]
  · rw [ht, advance_idx, hw.seq, hidx]
  · rw [ht, advance_progress, hw.seq, hprog]
  · rw [ht, advance_errAddr, hw.errAddr, hrun.errAddr]
  · rw [ht, advance_errorRecord, hw.errorRecord]
  · split
    case isTrue hlast =>
      rw [if_pos hlast] at hreport
      refine ⟨hreport.1, hreport.2, ?_⟩
      rw [ht, advance_progress, hw.seq, hlast, BitVec.ofNat_toNat, BitVec.setWidth_eq]
    case isFalse hmore =>
      rwa [if_neg hmore] at hreport

/-! ### Several steps of a run -/

/-- `t` is reached from `s` by steps of the run of `path` in progress in `s`: the bytes from the place of `s` up to the place
of `t` in the destination hold the outputs of the source as it was in `s`, and every other byte is as it was. -/
structure RunSegment (path : Path) (s t : State) : Prop where
  frame : TurnFrame s t
  errorRecord : t.errorRecord = s.errorRecord
  forward : stepDst path.granularity s ≤ stepDst path.granularity t
  outputs : s.raced = false → ∀ i, path.granularity * s.seq.idx.toNat ≤ 3 * i →
    3 * i < path.granularity * t.seq.idx.toNat → ∀ k : Fin 3,
      t.mem.read (s.seq.dst.toNat + 3 * i + outPosition s.cfg.outMap k) =
        pixelOutput path s.cfg.laneMode s.mem (s.seq.src.toNat + 3 * i) k
  outside : ∀ a, a < stepDst path.granularity s ∨ stepDst path.granularity t ≤ a → t.mem.read a = s.mem.read a

theorem TurnFrame.trans {s t u : State} (h : TurnFrame s t) (h' : TurnFrame t u) : TurnFrame s u :=
  ⟨h'.cfg.trans h.cfg, h'.src.trans h.src, h'.dst.trans h.dst, h'.len.trans h.len, h'.seqSrc.trans h.seqSrc,
    h'.seqDst.trans h.seqDst, h'.seqLen.trans h.seqLen, h'.seqPf.trans h.seqPf, h'.pending.trans h.pending,
    h'.busData.trans h.busData, h'.raced.trans h.raced⟩

/-- A pixel's outputs depend on its three bytes only. -/
theorem pixelOutput_congr {path : Path} {mode : LaneMode} {m m' : Memory} {a : Nat}
    (h : ∀ j, j < 3 → m'.read (a + j) = m.read (a + j)) (k : Fin 3) :
    pixelOutput path mode m' a k = pixelOutput path mode m a k := by
  have h0 : m'.read a = m.read a := h 0 (by decide)
  cases path <;> simp only [pixelOutput, h0, h 1 (by decide), h 2 (by decide)]

theorem Path.three_dvd_granularity (p : Path) : 3 ∣ p.granularity := by cases p <;> decide

/-- The source pixels still to be read are no bytes a segment of the run has written, in place too (20_memory.md R68,
42_scalar_corrector.md R145). -/
theorem RunSegment.source_kept {path : Path} {s t : State} (h : RunSegment path s t) (hrun : RunInv path s)
    (ht : path.granularity * t.seq.idx.toNat ≤ s.seq.len.toNat) {o : Nat} (ho : path.granularity * t.seq.idx.toNat ≤ o)
    (hlen : o < s.seq.len.toNat) : t.mem.read (s.seq.src.toNat + o) = s.mem.read (s.seq.src.toNat + o) := by
  refine h.outside _ ?_
  unfold stepDst
  rw [h.frame.seqDst]
  rcases hrun.noOverlap with hsame | hbefore | hafter
  · rw [hsame]; omega
  · omega
  · omega

/-- Two segments make one: the outputs of the first are outside the second, and the sources of the second are outside the
first. -/
theorem RunSegment.trans {path : Path} {s t u : State} (hrun : RunInv path s) (h : RunSegment path s t)
    (h' : RunSegment path t u) (hu : path.granularity * u.seq.idx.toNat ≤ s.seq.len.toNat) : RunSegment path s u := by
  have hf := h.frame
  have hst := h.forward
  have htu := h'.forward
  refine ⟨hf.trans h'.frame, h'.errorRecord.trans h.errorRecord, hst.trans htu, fun hclean i hlo hhi k => ?_,
    fun a ha => ?_⟩
  · have hk := outPosition_lt s.cfg.outMap k
    obtain ⟨g, hg⟩ := path.three_dvd_granularity
    rcases Nat.lt_or_ge (3 * i) (path.granularity * t.seq.idx.toNat) with hfirst | hsecond
    · rw [h'.outside _ (.inl ?_), h.outputs hclean i hlo hfirst k]
      rw [hg, Nat.mul_assoc] at hfirst
      rw [stepDst, hf.seqDst, hg, Nat.mul_assoc]
      omega
    · have hout := h'.outputs (hf.raced.trans hclean) i hsecond hhi k
      rw [hf.seqDst, hf.seqSrc, hf.cfg] at hout
      rw [hout]
      refine pixelOutput_congr (fun j hj => ?_) k
      rw [hg, Nat.mul_assoc] at hhi hu
      rw [Nat.add_assoc, h.source_kept hrun (by omega) (by omega) (by omega)]
  · rw [h'.outside a (by omega), h.outside a (by omega)]

/-- One turn of the unit in a run, every access `MemOK`, is a segment of the run (O39 in these words). -/
theorem unitStep_segment {path : Path} {s : State} (hi : LegalState s) (hb : s.status.busy = true) (hrun : RunInv path s)
    (hok : ∀ j, j < path.granularity → memOK s.cfg (stepSrc path.granularity s + j) = true ∧
      memOK s.cfg (stepDst path.granularity s + j) = true) : RunSegment path s (unitStep s) := by
  obtain ⟨houtputs, houtside, hidx, _, _, hrecord, hframe, _⟩ := runStepWritesItsPixels path s hi hb hrun hok
  have hnext : stepDst path.granularity (unitStep s) = stepDst path.granularity s + path.granularity := by
    rw [stepDst, hframe.seqDst, hidx, Nat.mul_succ, ← Nat.add_assoc, stepDst]
  refine ⟨hframe, hrecord, by omega, fun hclean i hlo hhi k => ?_, fun a ha => houtside a (by omega)⟩
  rw [hidx, Nat.mul_succ] at hhi
  obtain ⟨g, hg⟩ := path.three_dvd_granularity
  obtain ⟨q, rfl⟩ : ∃ q, i = g * s.seq.idx.toNat + q :=
    Nat.exists_eq_add_of_le (by rw [hg, Nat.mul_assoc] at hlo; omega)
  have hplace : 3 * (g * s.seq.idx.toNat + q) = path.granularity * s.seq.idx.toNat + 3 * q := by
    rw [hg, Nat.mul_add, Nat.mul_assoc]
  rw [hplace, ← Nat.add_assoc, ← Nat.add_assoc]
  exact houtputs hclean q (by omega) k

/-! ### A whole run -/

/-- A run of `path` is in progress, the host leaves it alone, and all its bytes respond (premises of R145). -/
structure RunReady (path : Path) (s : State) : Prop where
  legal : LegalState s
  busy : s.status.busy = true
  inv : RunInv path s
  alone : s.pending = []
  responds : RunMemOK s

/-- The bytes of the next step are bytes of the run. -/
theorem RunReady.step_memOK {path : Path} {s : State} (h : RunReady path s) : ∀ j, j < path.granularity →
    memOK s.cfg (stepSrc path.granularity s + j) = true ∧ memOK s.cfg (stepDst path.granularity s + j) = true := by
  intro j hj
  have hsrc := h.inv.src_step_fits
  have hdst := h.inv.dst_step_fits
  unfold stepSrc at hsrc ⊢
  unfold stepDst at hdst ⊢
  exact ⟨h.responds _ (.inl (inSource_eq_true.2 (by omega))), h.responds _ (.inr (inDestination_eq_true.2 (by omega)))⟩

theorem RunReady.segment {path : Path} {s : State} (h : RunReady path s) : RunSegment path s (unitStep s) :=
  unitStep_segment h.legal h.busy h.inv h.step_memOK

/-- What a turn of a run left alone does to the report and the place. -/
theorem RunReady.report {path : Path} {s : State} (h : RunReady path s) :
    (unitStep s).seq.idx.toNat = s.seq.idx.toNat + 1 ∧
    if path.granularity * (s.seq.idx.toNat + 1) = s.seq.len.toNat
    then (unitStep s).status = .completed ∧ (unitStep s).progress = s.seq.len ∧ (unitStep s).errAddr = 0
    else (unitStep s).status = .running ∧ (unitStep s).seq.mode = path.mode := by
  obtain ⟨_, _, hidx, _, herr, _, _, hreport⟩ := runStepWritesItsPixels path s h.legal h.busy h.inv h.step_memOK
  refine ⟨hidx, ?_⟩
  split
  case isTrue hlast =>
    rw [if_pos hlast] at hreport
    exact ⟨hreport.1, hreport.2.2, herr⟩
  case isFalse hmore => rwa [if_neg hmore] at hreport

/-- A run left alone is still one after each step but the last. -/
theorem RunReady.next {path : Path} {s : State} (h : RunReady path s)
    (hmore : path.granularity * (s.seq.idx.toNat + 1) ≠ s.seq.len.toNat) : RunReady path (unitStep s) := by
  have hreport := h.report.2
  rw [if_neg hmore] at hreport
  obtain ⟨hstatus, hmode⟩ := hreport
  have hframe := unitStep_frame s
  have hlegal := unitStep_legal h.legal
  have hbusy : (unitStep s).status.busy = true := by rw [hstatus]; rfl
  obtain ⟨_, path', hinv⟩ := hlegal.busyInv hbusy
  obtain rfl : path' = path := Path.mode_injective (hinv.mode.symm.trans hmode)
  refine ⟨hlegal, hbusy, hinv, hframe.pending.trans h.alone, fun a ha => ?_⟩
  rw [hframe.cfg]
  refine h.responds a ?_
  simpa only [inSource, inDestination, hframe.seqSrc, hframe.seqDst, hframe.seqLen] using ha

/-- `t` is `s` after the rest of the run of `path` in progress in `s`. -/
structure RunCompleted (path : Path) (s t : State) : Prop where
  segment : RunSegment path s t
  atEnd : path.granularity * t.seq.idx.toNat = s.seq.len.toNat
  status : t.status = .completed
  progress : t.progress = s.seq.len
  errAddr : t.errAddr = 0

/-- A run left alone completes with its last step: by induction on the steps that come before it. -/
theorem RunReady.completes {path : Path} (k : Nat) : ∀ {s : State}, RunReady path s →
    path.granularity * (s.seq.idx.toNat + (k + 1)) = s.seq.len.toNat →
    ∃ t, core.run (k + 1) s = .next t ∧ RunCompleted path s t := by
  induction k with
  | zero =>
    intro s h hlast
    obtain ⟨hidx, hreport⟩ := h.report
    rw [if_pos hlast] at hreport
    obtain ⟨hstatus, hprogress, herr⟩ := hreport
    exact ⟨unitStep s, (run_succ (step_unit h.alone)).trans (run_zero _),
      h.segment, by rw [hidx, hlast], hstatus, hprogress, herr⟩
  | succ k ih =>
    intro s h hlast
    obtain ⟨hidx, _⟩ := h.report
    have hmore : path.granularity * (s.seq.idx.toNat + 1) ≠ s.seq.len.toNat := fun he => by
      have := Nat.eq_of_mul_eq_mul_left path.granularity_pos (hlast.trans he.symm)
      omega
    have hlen := h.segment.frame.seqLen
    obtain ⟨t, hrun, ht⟩ := ih (h.next hmore) (by rw [hidx, hlen, ← hlast]; congr 1; omega)
    have hend := hlen ▸ ht.atEnd
    exact ⟨t, (run_succ (step_unit h.alone)).trans hrun, h.segment.trans h.inv ht.segment hend.le, hend, ht.status,
      hlen ▸ ht.progress, ht.errAddr⟩

/-- The number of steps that are left in a run (42_scalar_corrector.md R144). -/
theorem RunInv.steps_left {path : Path} {s : State} (h : RunInv path s) :
    ∃ k, s.seq.len.toNat / path.granularity - s.seq.idx.toNat = k + 1 ∧
      path.granularity * (s.seq.idx.toNat + (k + 1)) = s.seq.len.toNat := by
  obtain ⟨q, hq⟩ := Nat.dvd_of_mod_eq_zero h.lengthMultiple
  have hlt : s.seq.idx.toNat < q := Nat.lt_of_mul_lt_mul_left (hq ▸ h.indexBound)
  refine ⟨q - s.seq.idx.toNat - 1, ?_, ?_⟩
  · rw [hq, Nat.mul_div_cancel_left _ path.granularity_pos]; omega
  · rw [hq]; congr 1; omega

/-- Settles O44: `RunReady.completes` over the steps that are left; the segment it gives reaches the end of the run. -/
theorem runCorrectsTheBuffer : Obligations.RunCorrectsTheBuffer := by
  intro path s hi hb hinv halone hmem done
  obtain ⟨k, hk, hlast⟩ := hinv.steps_left
  obtain ⟨t, hrun, ht⟩ := RunReady.completes k ⟨hi, hb, hinv, halone, hmem⟩ hlast
  have hseg := ht.segment
  refine ⟨t, hk ▸ hrun, ht.status, ht.progress, ht.errAddr, hseg.errorRecord, fun hclean i hlo hhi => ?_, fun a ha => ?_⟩
  · exact hseg.outputs hclean i hlo (ht.atEnd ▸ hhi)
  · refine hseg.outside a ?_
    unfold stepDst
    rwa [hseg.frame.seqDst, ht.atEnd]

end Sys2Proof.Machine
end


section
/-! The vector_mac_lane array: acceptance of CM.BULK, what the lanes compute, the prefetch hint, and the agreement of the
vector path with the scalar path: the statements of 43_vector_mac_lane.md. -/

namespace Sys2Proof.Machine

/-! ### Acceptance (43_vector_mac_lane.md R169, 44_dispatch_control.md R190) -/

/-- With the vector array and operands that pass the checks, both BULK words are accepted with their hint. -/
theorem requestBulk_accepted {s : State} (hv : s.cfg.vecPresent = true) (hacc : Acceptable .bulk s.len.toNat s)
    (pf : Bool) : requestBulk pf s = acceptRun .bulk s.len.toNat pf s := by
  rw [requestBulk, if_pos hv]
  exact requestRun_accepted (r := ⟨.bulk, s.len.toNat, pf⟩) hacc

/-- A run over LEN bytes latches the register LEN itself. -/
theorem acceptRun_len_register (path : Path) (pf : Bool) (s : State) :
    acceptRun path s.len.toNat pf s = { s with
      seq := { mode := path.mode, src := s.src, dst := s.dst, len := s.len, pf := pf, idx := 0 }
      status := .running, progress := 0, errAddr := 0, raced := false } := by
  rw [acceptRun, BitVec.ofNat_toNat, BitVec.setWidth_eq]

/-- Settles O22: both words ask for the run (`requestBulk_accepted`), the second with the hint. -/
theorem bulkIsAccepted : Obligations.BulkIsAccepted := by
  intro s hb hv hacc
  have hexec (pf : Bool) : whenIdle (requestBulk pf) s = .next (acceptRun .bulk s.len.toNat pf s) := by
    rw [whenIdle_idle hb, requestBulk_accepted hv hacc]
  simp only [acceptRun_len_register] at hexec
  exact ⟨hexec false, hexec true⟩

/-! ### The lanes (43_vector_mac_lane.md R160 to R168) -/

/-- The multiplications of row `k` touch no other row of ACC (R162, R163). -/
theorem uVmac_row_acc_other {k j : Fin 3} (h : j ≠ k) (s : State) :
    (uVmac k 2 (uVmac k 1 (uVmul k s))).lanes.acc[j] = s.lanes.acc[j] := by
  have hne : k.val ≠ j.val := fun he => h (Fin.ext he.symm)
  simp [uVmac, uVmul, Vector.getElem_set_ne, hne]

/-- Settles O35: the row itself is `uVmac_row`, the other rows `uVmac_row_acc_other`; S and D are not written. -/
theorem laneAccumulatorsAreExact : Obligations.LaneAccumulatorsAreExact := fun k l s =>
  ⟨uVmac_row k s l, fun _ hj => uVmac_row_acc_other hj s, rfl, rfl⟩

/-- Settles O36: `groupCompute_narrow` at each lane mode; the gathers and rows keep memory (`groupCompute_same`). -/
theorem lanesComputeTheirOwnPixel : Obligations.LanesComputeTheirOwnPixel := by
  intro s k l a
  have hnarrow := groupCompute_narrow s k l
  refine ⟨fun hm => ?_, fun hm => ?_, (groupCompute_same s).mem⟩
  · rw [hnarrow, hm]; rfl
  · rw [hnarrow, hm]; rfl

/-- The two bytes differ by at most 1. -/
def WithinOne (x y : Byte) : Prop := x.toNat ≤ y.toNat + 1 ∧ y.toNat ≤ x.toNat + 1

theorem WithinOne.refl (x : Byte) : WithinOne x x := ⟨Nat.le_succ _, Nat.le_succ _⟩

theorem WithinOne.symm {x y : Byte} (h : WithinOne x y) : WithinOne y x := ⟨h.2, h.1⟩

theorem nudge_withinOne (c : Fin 3) (v : Byte) : WithinOne (nudge c v) v := by
  have hv := v.isLt
  unfold WithinOne
  rw [nudge_toNat]
  omega

/-- `VFN_TOL` of R168. -/
theorem vfn_withinOne (s0 s1 s2 : Byte) (k : Fin 3) : WithinOne (vfn s0 s1 s2 k) (cm s0 s1 s2 k) := by
  unfold vfn
  split
  case isTrue h =>
    obtain ⟨rfl, rfl, rfl⟩ := h
    rw [cm_zero]
    exact WithinOne.refl 0
  case isFalse => exact nudge_withinOne _ _

/-- Settles O37: `vfn_withinOne` and `vfn_zero`. -/
theorem tolerantLanesAreWithinOne : Obligations.TolerantLanesAreWithinOne :=
  ⟨vfn_withinOne, vfn_zero⟩

/-! ### The prefetch hint (43_vector_mac_lane.md R166) -/

/-- `s` with the hint `b` in SEQ. -/
def State.withPf (s : State) (b : Bool) : State := { s with seq := { s.seq with pf := b } }

/-- `f` neither reads nor writes the hint. -/
def IgnoresPf (f : State → State) : Prop := ∀ (s : State) (b : Bool), f (s.withPf b) = (f s).withPf b

theorem IgnoresPf.comp {f g : State → State} (hf : IgnoresPf f) (hg : IgnoresPf g) : IgnoresPf fun s => f (g s) :=
  fun s b => (congrArg f (hg s b)).trans (hf (g s) b)

theorem uSatn_ignoresPf (k : Fin 3) : IgnoresPf (uSatn k) := by
  intro s b
  unfold uSatn
  rw [show (s.withPf b).cfg = s.cfg from rfl]
  cases s.cfg.laneMode <;> rfl

theorem uRow_ignoresPf (k : Fin 3) : IgnoresPf (uRow k) :=
  (uSatn_ignoresPf k).comp (g := fun s => uVmac k 2 (uVmac k 1 (uVmul k s))) fun _ _ => rfl

theorem groupCompute_ignoresPf : IgnoresPf groupCompute := by
  have hgather : IgnoresPf fun s => uGather 2 (uGather 1 (uGather 0 (uPrefetch s))) := by
    intro s b
    simp only [uPrefetch_eq]
    rfl
  exact (uRow_ignoresPf 2).comp ((uRow_ignoresPf 1).comp ((uRow_ignoresPf 0).comp hgather))

theorem advance_ignoresPf (n : Nat) : IgnoresPf (advance n) := by
  intro s b
  by_cases h : n * (s.seq.idx.toNat + 1) = s.seq.len.toNat
  · rw [advance_last h]; exact advance_last (s := s.withPf b) h
  · rw [advance_more h]; exact advance_more (s := s.withPf b) h

/-- The shape a pixel step and a group step share (42_scalar_corrector.md R143, R170): the read phase, what `compute` makes of
it, the write phase `store`, and the end of a step of `n` bytes. -/
def phasedStep (n : Nat) (compute store : State → State) (s : State) : State :=
  match failing s.cfg (byteRange (stepSrc n s) n) with
  | a :: more => busError (a :: more) s
  | [] =>
    let t := compute s
    match failing s.cfg (byteRange (stepDst n t) n) with
    | a :: more => busError (a :: more) (unspecify (stepDst n t) n t)
    | [] => advance n (store t)

theorem pixelStep_eq_phasedStep :
    pixelStep = phasedStep 3 pixelCompute fun t => storeRun (pixelWrites t) t := rfl

theorem groupStep_eq_phasedStep : groupStep = phasedStep 24 groupCompute groupScatter := rfl

theorem phasedStep_ignoresPf (n : Nat) {compute store : State → State} (hc : IgnoresPf compute) (hs : IgnoresPf store) :
    IgnoresPf (phasedStep n compute store) := by
  intro s b
  have hreads : failing (s.withPf b).cfg (byteRange (stepSrc n (s.withPf b)) n) =
    failing s.cfg (byteRange (stepSrc n s) n) := rfl
  have hwrites : failing (s.withPf b).cfg (byteRange (stepDst n ((compute s).withPf b)) n) =
    failing s.cfg (byteRange (stepDst n (compute s)) n) := rfl
  simp only [phasedStep, hreads, hc s b, hwrites, hs (compute s) b]
  cases failing s.cfg (byteRange (stepSrc n s) n) with
  | cons => rfl
  | nil =>
    cases failing s.cfg (byteRange (stepDst n (compute s)) n) with
    | cons => rfl
    | nil => exact advance_ignoresPf n _ b

theorem pixelStep_ignoresPf : IgnoresPf pixelStep := by
  rw [pixelStep_eq_phasedStep]
  exact phasedStep_ignoresPf 3 (fun _ _ => rfl) fun _ _ => rfl

theorem groupStep_ignoresPf : IgnoresPf groupStep := by
  rw [groupStep_eq_phasedStep]
  exact phasedStep_ignoresPf 24 groupCompute_ignoresPf fun _ _ => rfl

theorem unitStep_ignoresPf : IgnoresPf unitStep := by
  intro s b
  unfold unitStep
  rw [show (s.withPf b).seq.mode = s.seq.mode from rfl]
  cases s.seq.mode with
  | idle => rfl
  | scalar => exact pixelStep_ignoresPf s b
  | bulk => exact groupStep_ignoresPf s b

/-- What a prefetch may read: the next group, with the hint set, where the run has one. -/
theorem prefetchRange_eq_some {s : State} {a n : Nat} (h : prefetchRange s = some (a, n)) :
    (s.seq.pf = true ∧ 24 * (s.seq.idx.toNat + 2) ≤ s.seq.len.toNat) ∧
      a = s.seq.src.toNat + 24 * (s.seq.idx.toNat + 1) ∧ n = 24 := by
  obtain ⟨hguard, heq⟩ := Option.ite_none_right_eq_some.1 h
  cases heq
  exact ⟨hguard, rfl, rfl⟩

/-- Settles O42: `unitStep_ignoresPf`, and `prefetchRange_eq_some` with the bound of its guard. -/
theorem prefetchHasNoEffect : Obligations.PrefetchHasNoEffect := by
  refine fun s b => ⟨unitStep_ignoresPf s b, fun a n h => ?_⟩
  obtain ⟨⟨hpf, hlen⟩, rfl, rfl⟩ := prefetchRange_eq_some h
  exact ⟨hpf, rfl, rfl, by omega⟩

/-! ### A command and the whole run it starts -/

theorem LegalState.runInv {path : Path} {s : State} (h : LegalState s) (hb : s.status.busy = true)
    (hmode : s.seq.mode = path.mode) : RunInv path s := by
  obtain ⟨_, path', hinv⟩ := h.busyInv hb
  obtain rfl := Path.mode_injective (hinv.mode.symm.trans hmode)
  exact hinv

/-- Every run of steps keeps a legal state legal. -/
theorem run_legal {n : Nat} : ∀ {s t : State}, LegalState s → core.run n s = .next t → LegalState t := by
  induction n with
  | zero =>
    intro s t hi h
    obtain rfl := Host.Outcome.next.inj h
    exact hi
  | succ n ih =>
    intro s t hi h
    simp only [Host.Core.run] at h
    split at h
    next s' hs => exact ih (everyStepKeepsTheInvariant s s' hi hs) h
    next => cases h
    next => cases h

/-- Every byte of the two ranges of a run of `n` bytes from SRC to DST is `MemOK`. -/
def OperandsMemOK (n : Nat) (s : State) : Prop :=
  ∀ a, (s.src.toNat ≤ a ∧ a < s.src.toNat + n) ∨ (s.dst.toNat ≤ a ∧ a < s.dst.toNat + n) → memOK s.cfg a = true

/-- The length of an acceptable run fits SEQ.len. -/
theorem Acceptable.length_fits {path : Path} {n : Nat} {s : State} (h : Acceptable path n s) :
    (BitVec.ofNat 32 n).toNat = n := by
  obtain ⟨_, _, hsrc, _, hfits, _, _⟩ := rejection_eq_none.1 h.rejection_none
  rw [BitVec.toNat_ofNat]
  apply Nat.mod_eq_of_lt
  unfold addressLimit at hfits
  omega

/-- An accepted run over memory that responds, with nothing pending, is left alone to its end. -/
theorem acceptRun_ready {path : Path} {n : Nat} {s : State} (hm : s.mem.wf = true) (hp : s.pending = [])
    (hacc : Acceptable path n s) (hok : OperandsMemOK n s) (pf : Bool) : RunReady path (acceptRun path n pf s) := by
  have hlegal : LegalState (acceptRun path n pf s) := acceptRun_inv hm hacc.rejection_none
  refine ⟨hlegal, rfl, hlegal.runInv rfl rfl, hp, fun a ha => hok a ?_⟩
  simpa only [inSource_eq_true, inDestination_eq_true, acceptRun_seq, hacc.length_fits] using ha

/-- `t` is the end of a run of `path` over `n` bytes from SRC to DST of `s`: complete, every pixel of the destination holds
the outputs of its source pixel in `s`, and every byte outside is as it was (42_scalar_corrector.md R144, R145). -/
structure BufferCorrected (path : Path) (n : Nat) (s t : State) : Prop where
  status : t.status = .completed
  wf : t.mem.wf = true
  outputs : ∀ i, 3 * i < n → ∀ k : Fin 3, t.mem.read (s.dst.toNat + 3 * i + outPosition s.cfg.outMap k) =
    pixelOutput path s.cfg.laneMode s.mem (s.src.toNat + 3 * i) k
  outside : ∀ a, a < s.dst.toNat ∨ s.dst.toNat + n ≤ a → t.mem.read a = s.mem.read a

/-- The run an acceptance starts corrects the buffer (O44 from its first step). -/
theorem acceptRun_corrects {path : Path} {n : Nat} {s : State} (hm : s.mem.wf = true) (hp : s.pending = [])
    (hacc : Acceptable path n s) (hok : OperandsMemOK n s) (pf : Bool) :
    ∃ t, core.run (n / path.granularity) (acceptRun path n pf s) = .next t ∧ BufferCorrected path n s t := by
  obtain ⟨hi, hb, hinv, halone, hmem⟩ := acceptRun_ready hm hp hacc hok pf
  obtain ⟨t, hrun, hstatus, _, _, _, houtputs, houtside⟩ := runCorrectsTheBuffer path _ hi hb hinv halone hmem
  simp only [acceptRun_seq, hacc.length_fits] at hrun houtputs houtside
  exact ⟨t, hrun, hstatus, (run_legal hi hrun).memory, fun i hi => houtputs rfl i (Nat.zero_le _) hi, houtside⟩

/-- `s` with no host access pending. -/
def State.alone (s : State) : State := { s with pending := [] }

/-- A pending command whose run is accepted corrects the buffer: one step for the command and one for each pixel or group. -/
theorem run_command_corrects {i : Instr} {path : Path} {n : Nat} {pf : Bool} {s : State} (hm : s.mem.wf = true)
    (hacc : Acceptable path n s) (hok : OperandsMemOK n s)
    (hexec : exec i s.alone = .next (acceptRun path n pf s.alone)) :
    ∃ t, core.run (1 + n / path.granularity) { s with pending := [command i] } = .next t ∧
      BufferCorrected path n s t := by
  have hstep : step { s with pending := [command i] } = exec i s.alone := step_command rfl (decode_encode i)
  obtain ⟨t, hrun, ht⟩ := acceptRun_corrects (s := s.alone) hm rfl { hacc with } hok pf
  refine ⟨t, ?_, { ht with }⟩
  rw [Nat.add_comm, run_succ (hstep.trans hexec), hrun]

/-! ### The two paths agree (43_vector_mac_lane.md R172) -/

/-- What the vector path takes the scalar path takes too: a length of whole groups is one of whole pixels. -/
theorem Acceptable.scalar_of_bulk {n : Nat} {s : State} (h : Acceptable .bulk n s) : Acceptable .scalar n s := by
  have hmul : n % 24 = 0 := h.multiple
  exact { h with multiple := (by omega : n % 3 = 0) }

/-- The outputs of the two paths are within 1 (R168). -/
theorem pixelOutput_withinOne (mode : LaneMode) (m : Memory) (a : Nat) (k : Fin 3) :
    WithinOne (pixelOutput .scalar mode m a k) (pixelOutput .bulk mode m a k) := by
  cases mode with
  | exact => exact WithinOne.refl _
  | tolerant => exact (vfn_withinOne _ _ _ _).symm

/-- A byte of a destination of whole pixels is an output of one of them. -/
theorem exists_output_position (m : OutMap) {n d a : Nat} (h3 : n % 3 = 0) (hlo : d ≤ a) (hhi : a < d + n) :
    ∃ i, 3 * i < n ∧ ∃ k, a = d + 3 * i + outPosition m k := by
  obtain ⟨k, hk⟩ := outPosition_surjective m ⟨(a - d) % 3, Nat.mod_lt _ (by decide)⟩
  refine ⟨(a - d) / 3, by omega, k, ?_⟩
  rw [hk]
  dsimp only
  omega

/-- Bytes that two runs over the same buffer leave are related as the outputs of their paths are. -/
theorem BufferCorrected.rel {p q : Path} {n : Nat} {s t u : State} (ht : BufferCorrected p n s t)
    (hu : BufferCorrected q n s u) (h3 : n % 3 = 0) {R : Byte → Byte → Prop} (hrefl : ∀ x, R x x)
    (hout : ∀ a k, R (pixelOutput p s.cfg.laneMode s.mem a k) (pixelOutput q s.cfg.laneMode s.mem a k)) (a : Nat) :
    R (t.mem.read a) (u.mem.read a) := by
  by_cases hin : s.dst.toNat ≤ a ∧ a < s.dst.toNat + n
  · obtain ⟨i, hi, k, rfl⟩ := exists_output_position s.cfg.outMap h3 hin.1 hin.2
    rw [ht.outputs i hi k, hu.outputs i hi k]
    exact hout _ k
  · rw [ht.outside a (by omega), hu.outside a (by omega)]
    exact hrefl _

/-- A scalar and a vector run over the same buffer leave bytes that are within 1. -/
theorem BufferCorrected.withinOne {n : Nat} {s t u : State} (ht : BufferCorrected .scalar n s t)
    (hu : BufferCorrected .bulk n s u) (h3 : n % 3 = 0) (a : Nat) : WithinOne (t.mem.read a) (u.mem.read a) :=
  ht.rel hu h3 WithinOne.refl (pixelOutput_withinOne s.cfg.laneMode s.mem) a

/-- In `EXACT` mode a scalar and a vector run over the same buffer leave the same memory. -/
theorem BufferCorrected.mem_eq {n : Nat} {s t u : State} (ht : BufferCorrected .scalar n s t)
    (hu : BufferCorrected .bulk n s u) (h3 : n % 3 = 0) (hexact : s.cfg.laneMode = .exact) : t.mem = u.mem :=
  Memory.ext_read ht.wf hu.wf (ht.rel hu h3 (fun _ => rfl) fun a k => by rw [hexact]; rfl)

/-- Settles O45: each command corrects the buffer (`run_command_corrects`), and the two results agree byte by byte. -/
theorem scalarAndBulkAgree : Obligations.ScalarAndBulkAgree := by
  intro s hi hb hv hacc hok
  have hscalar := hacc.scalar_of_bulk
  have hexecT : exec .scalar s.alone = .next (acceptRun .scalar s.len.toNat false s.alone) :=
    (exec_scalar_idle (s := s.alone) hb).trans (congrArg _ (requestRun_accepted { hscalar with }))
  have hexecU : exec .bulk s.alone = .next (acceptRun .bulk s.len.toNat false s.alone) :=
    (whenIdle_idle (s := s.alone) hb).trans (congrArg _ (requestBulk_accepted (s := s.alone) hv { hacc with } false))
  obtain ⟨t, hrunT, ht⟩ := run_command_corrects hi.memory hscalar hok hexecT
  obtain ⟨u, hrunU, hu⟩ := run_command_corrects hi.memory hacc hok hexecU
  exact ⟨t, u, hrunT, hrunU, ht.status, hu.status, ht.mem_eq hu hscalar.multiple, ht.withinOne hu hscalar.multiple⟩

end Sys2Proof.Machine
end


section
/-! The commands as the dispatcher sees them: how a CMD write becomes one, CM.NOP, CM.CLEAR, commands while busy, CM.BULK
without the vector array, and CM.WB on its two paths: the statements of 44_dispatch_control.md. -/

namespace Sys2Proof.Machine

/-! ### Dispatch (44_dispatch_control.md R190, R198) -/

/-- Settles O4: `step_command`. -/
theorem stepRunsTheDecodedCommand : Obligations.StepRunsTheDecodedCommand := fun _ _ _ _ hp hw =>
  step_command hp hw

theorem exec_busy {s : State} (hb : s.status.busy = true) (i : Instr) : exec i s = .next s := by
  rcases exec_cases i s with ⟨_, h⟩ | ⟨hidle, _⟩
  · exact h
  · simp [hb] at hidle

/-- Settles O20: commands by `exec_busy`, words by `cmdWrite_busy`. -/
theorem busyDropsCommands : Obligations.BusyDropsCommands := fun _ i w hb =>
  ⟨exec_busy hb i, cmdWrite_busy hb w⟩

/-! ### CM.NOP and CM.CLEAR (R191, R192) -/

@[simp] theorem exec_nop (s : State) : exec .nop s = .next s :=
  congrArg Host.Outcome.next (ite_self s)

/-- Settles O18: the word 0 is CM.NOP's, and `exec_nop` is the same whatever BUSY is. -/
theorem nopChangesNothing : Obligations.NopChangesNothing :=
  ⟨decode_encode .nop, exec_nop⟩

theorem exec_clear_idle {s : State} (hb : s.status.busy = false) : exec .clear s = .next (clearReport s) :=
  whenIdle_idle hb

/-- Settles O19: `exec_clear_idle` and `exec_busy`; with PF set the word has no command. -/
theorem clearClearsTheReport : Obligations.ClearClearsTheReport :=
  ⟨fun _ => ⟨exec_clear_idle, fun hb => exec_busy hb .clear⟩, decode_encode .clear, by decide⟩

/-! ### CM.BULK without the vector array (R197) -/

theorem requestBulk_withoutArray {s : State} (hv : s.cfg.vecPresent = false) (pf : Bool) :
    requestBulk pf s = fail .illegalCommand 0 s := by
  simp [requestBulk, hv]

/-- Settles O26: both words fail before the operands are looked at (`requestBulk_withoutArray`), and `fail_rejected` says
what a failure leaves. -/
theorem bulkNeedsTheVectorArray : Obligations.BulkNeedsTheVectorArray := by
  intro s i hb hv hi
  refine ⟨fail .illegalCommand 0 s, ?_, fail_rejected (by decide)⟩
  have hexec (pf : Bool) : whenIdle (requestBulk pf) s = .next (fail .illegalCommand 0 s) := by
    rw [whenIdle_idle hb, requestBulk_withoutArray hv]
  rcases hi with rfl | rfl
  · exact hexec false
  · exact hexec true

/-! ### Acceptance of CM.WB (R193 to R195) -/

theorem wbSelect_vector {p : Params} (hv : p.vecPresent = true) (pf : Bool) :
    wbSelect p pf = ⟨.bulk, p.frameBytes, pf⟩ := by
  simp [wbSelect, hv]

theorem wbSelect_scalar {p : Params} (hv : p.vecPresent = false) (pf : Bool) :
    wbSelect p pf = ⟨.scalar, p.frameBytes, false⟩ := by
  simp [wbSelect, hv]

/-- A CM.WB word whose operands pass the checks of the path `wbSelect` gives is accepted on that path. -/
theorem wb_accepted {pf : Bool} {r : RunRequest} {s : State} (hb : s.status.busy = false)
    (hr : wbSelect s.cfg pf = r) (hacc : Acceptable r.path r.length s) :
    whenIdle (fun s => requestRun (wbSelect s.cfg pf) s) s = .next (acceptRun r.path r.length r.pf s) := by
  rw [whenIdle_idle hb, hr, requestRun_accepted hacc]

/-- Settles O23: on each path both words are `wb_accepted` with the request `wbSelect` gives there. -/
theorem whiteBalanceIsAccepted : Obligations.WhiteBalanceIsAccepted := by
  refine fun s hb => ⟨fun hv hacc => ?_, fun hv hacc i hi => ?_⟩
  · have hexec (pf : Bool) := wb_accepted hb (wbSelect_vector hv pf) hacc
    exact ⟨hexec false, hexec true⟩
  · have hexec (pf : Bool) := wb_accepted hb (wbSelect_scalar hv pf) hacc
    rcases hi with rfl | rfl
    · exact hexec false
    · exact hexec true

/-! ### The two paths of CM.WB agree (R196) -/

/-- `s` on a unit whose VEC_PRESENT is `v`. -/
def State.withVec (s : State) (v : Bool) : State := { s with cfg := { s.cfg with vecPresent := v } }

/-- CM.WB on the path `wbSelect` gives for VEC_PRESENT = `v` corrects the frame. VEC_PRESENT selects the path and nothing
else, so the result is said of `s` itself. -/
theorem run_wb_corrects {path : Path} {v : Bool} {s : State} (hm : s.mem.wf = true) (hb : s.status.busy = false)
    (hsel : wbSelect (s.withVec v).cfg false = ⟨path, s.cfg.frameBytes, false⟩)
    (hacc : Acceptable path s.cfg.frameBytes s) (hok : OperandsMemOK s.cfg.frameBytes s) :
    ∃ t, core.run (1 + s.cfg.frameBytes / path.granularity) { s.withVec v with pending := [command .wb] } = .next t ∧
      BufferCorrected path s.cfg.frameBytes s t := by
  have hexec : exec .wb (s.withVec v).alone =
      .next (acceptRun path s.cfg.frameBytes false (s.withVec v).alone) :=
    wb_accepted (s := (s.withVec v).alone) hb hsel { hacc with }
  obtain ⟨t, hrun, ht⟩ := run_command_corrects (s := s.withVec v) hm { hacc with } hok hexec
  exact ⟨t, hrun, { ht with }⟩

/-- Settles O46: CM.WB corrects the same frame on either path (`run_wb_corrects`), and the two results agree byte by
byte. -/
theorem whiteBalancePathsAgree : Obligations.WhiteBalancePathsAgree := by
  intro s hi hb _ hacc hok
  have hscalar := hacc.scalar_of_bulk
  obtain ⟨t, hrunT, ht⟩ := run_wb_corrects (v := true) hi.memory hb (wbSelect_vector rfl false) hacc hok
  obtain ⟨u, hrunU, hu⟩ := run_wb_corrects (v := false) hi.memory hb (wbSelect_scalar rfl false) hscalar hok
  exact ⟨t, u, hrunT, hrunU, ht.status, hu.status, fun hexact => (hu.mem_eq ht hscalar.multiple hexact).symm,
    fun a => (hu.withinOne ht hscalar.multiple a).symm⟩

end Sys2Proof.Machine
end


section
/-! What every error leaves: the checks of a command at acceptance in their order, the BusErrors of a step of a run, and the
launch-level error record: the statements of 60_exceptions.md. -/

namespace Sys2Proof.Machine

/-! ### The checks at acceptance (60_exceptions.md R213, R214, R217) -/

theorem lengthInvalid_eq_true {path : Path} {n : Nat} :
    lengthInvalid path n = true ↔ n = 0 ∨ n % path.granularity ≠ 0 := by
  simp [lengthInvalid]

theorem bufferNull_eq_true {s d : Word} : bufferNull s.toNat d.toNat = true ↔ s = 0 ∨ d = 0 := by
  simp [bufferNull, BitVec.toNat_eq]

theorem bufferWraps_eq_true {s d n : Nat} : bufferWraps s d n = true ↔ s + n > 2 ^ 32 ∨ d + n > 2 ^ 32 := by
  rw [bufferWraps, Bool.or_eq_true, decide_eq_true_eq, decide_eq_true_eq, addressLimit]

theorem bufferOverlaps_eq_true {s d : Word} {n : Nat} : bufferOverlaps s.toNat d.toNat n = true ↔
    s ≠ d ∧ s.toNat < d.toNat + n ∧ d.toNat < s.toNat + n := by
  simp [bufferOverlaps, BitVec.toNat_eq, and_assoc]

/-- The checks in the words of R213 and R214, on the registers that hold the addresses. -/
theorem rejection_eq_ite (path : Path) (n : Nat) (s d : Word) :
    rejection path n s.toNat d.toNat =
      if n = 0 ∨ n % path.granularity ≠ 0 then some .invalidLength
      else if s = 0 ∨ d = 0 then some .invalidBuffer
      else if s.toNat + n > 2 ^ 32 ∨ d.toNat + n > 2 ^ 32 then some .invalidBuffer
      else if s ≠ d ∧ s.toNat < d.toNat + n ∧ d.toNat < s.toNat + n then some .invalidBuffer
      else none := by
  simp only [rejection, lengthInvalid_eq_true, bufferNull_eq_true, bufferWraps_eq_true, bufferOverlaps_eq_true]

/-- InvalidLength is reported for a bad length and for no other reason (R213). -/
theorem rejection_invalidLength_iff {path : Path} {n : Nat} {s d : Word} :
    rejection path n s.toNat d.toNat = some .invalidLength ↔ n = 0 ∨ n % path.granularity ≠ 0 := by
  rw [rejection_eq_ite]
  by_cases hlen : n = 0 ∨ n % path.granularity ≠ 0
  · exact iff_of_true (if_pos hlen) hlen
  · refine iff_of_false ?_ hlen
    rw [if_neg hlen]
    split_ifs <;> exact nofun

theorem requestRun_status (r : RunRequest) (s : State) :
    (requestRun r s).status = (rejection r.path r.length s.src.toNat s.dst.toNat).elim .running .failed := by
  rcases requestRun_cases r s with ⟨hr, he⟩ | ⟨e, hr, _, he⟩ <;> rw [hr, he]
  · exact acceptRun_status _ _ _ s
  · exact fail_status e 0 s

/-- A request that fails a check leaves everything but the report, the record and the working registers (R216, R218). -/
theorem requestRun_rejected {r : RunRequest} {s : State} {e : ErrorCode}
    (h : rejection r.path r.length s.src.toNat s.dst.toNat = some e) : RejectedWith e s (requestRun r s) := by
  rcases requestRun_cases r s with ⟨hr, _⟩ | ⟨e', hr, hcode, he⟩
  · cases h.symm.trans hr
  · obtain rfl := Option.some.inj (h.symm.trans hr)
    rw [he]
    exact fail_rejected (by rcases hcode with rfl | rfl <;> decide)

/-- The bad lengths of R213, path by path. -/
theorem badLength_iff {path : Path} {n : Nat} :
    (n = 0 ∨ path = .scalar ∧ n % 3 ≠ 0 ∨ path = .bulk ∧ n % 24 ≠ 0) ↔ n = 0 ∨ n % path.granularity ≠ 0 := by
  cases path <;> simp [Path.granularity]

/-- Settles O24: the command asks for its run (`exec_run`), and InvalidLength is the answer exactly for the bad lengths
(`rejection_invalidLength_iff`). -/
theorem badLengthIsRejected : Obligations.BadLengthIsRejected := by
  intro s i path n hb hr hv
  obtain ⟨pf, hexec⟩ := exec_run hb hr hv
  refine ⟨_, hexec, ?_, ?_⟩ <;> rw [badLength_iff, ← rejection_invalidLength_iff (s := s.src) (d := s.dst)]
  · exact fun hrej => requestRun_rejected hrej
  · intro hrej
    rw [requestRun_status]
    cases hcode : rejection path n s.src.toNat s.dst.toNat with
    | none => exact nofun
    | some e =>
      rw [hcode] at hrej
      exact hrej

/-- Settles O25: with a good length the first check of R217 is passed, and the other three are the causes of R214. -/
theorem badBufferIsRejected : Obligations.BadBufferIsRejected := by
  intro s i path n hb hr hv hpos hmul bad
  obtain ⟨pf, hexec⟩ := exec_run hb hr hv
  have hlen : ¬(n = 0 ∨ n % path.granularity ≠ 0) := not_or.2 ⟨hpos, not_not.2 hmul⟩
  have hrej := rejection_eq_ite path n s.src s.dst
  rw [if_neg hlen] at hrej
  refine ⟨_, hexec, fun hbad => requestRun_rejected ?_, fun hgood => ?_⟩
  · rw [hrej]
    rcases hbad with h | h | h
    · rw [if_pos h]
    · rw [if_pos h, ite_self]
    · rw [if_pos h, ite_self, ite_self]
  · obtain ⟨hnull, hgood⟩ := not_or.1 hgood
    obtain ⟨hwraps, hoverlaps⟩ := not_or.1 hgood
    rw [requestRun_status, hrej, if_neg hnull, if_neg hwraps, if_neg hoverlaps]
    rfl

/-- Settles O28: CM.BULK without the vector array is O26; every other request has the STATUS of its first failing check
(`rejection_eq_ite`). -/
theorem firstFailingCheckIsReported : Obligations.FirstFailingCheckIsReported := by
  intro s i path n hb hr
  by_cases hv : (i = .bulk ∨ i = .bulkPf) ∧ s.cfg.vecPresent = false
  · obtain ⟨t, hexec, ht⟩ := bulkNeedsTheVectorArray s i hb hv.2 hv.1
    exact ⟨t, hexec, by rw [if_pos hv, ht.status]⟩
  · obtain ⟨pf, hexec⟩ := exec_run hb hr fun hi => Bool.eq_true_of_not_eq_false fun hno => hv ⟨hi, hno⟩
    refine ⟨_, hexec, ?_⟩
    rw [if_neg hv, requestRun_status, rejection_eq_ite]
    simp only [apply_ite (fun e : Option ErrorCode => e.elim Status.running Status.failed)]
    rfl

/-! ### Words that are no command (60_exceptions.md R212) -/

/-- A word that is no command's is illegal (30_encoding.md R88). -/
theorem decode_illegal {w : Word} (h : ∀ i, w ≠ encode i) : ∃ why, decode w = .illegal why := by
  cases hd : decode w with
  | command i => exact absurd ((decodeIsInverseOfEncode w i).1 hd) (h i)
  | illegal why => exact ⟨why, rfl⟩

theorem cmdWrite_illegal {w : Word} {why : IllegalWord} (h : decode w = .illegal why) (s : State) :
    cmdWrite w s = illegalWord s := by
  simp [cmdWrite, h]

/-- Settles O27: a word of no command reaches `illegalWord`, and a BULK word its command, which is O26. -/
theorem illegalWordIsRejected : Obligations.IllegalWordIsRejected := by
  rintro s w hb (hw | ⟨hv, hw⟩)
  · obtain ⟨why, hd⟩ := decode_illegal hw
    refine ⟨fail .illegalCommand 0 s, ?_, fail_rejected (by decide)⟩
    rw [cmdWrite_illegal hd]
    exact whenIdle_idle hb
  · have hbulk {i : Instr} (hi : i = .bulk ∨ i = .bulkPf) :
        ∃ t, cmdWrite (encode i) s = .next t ∧ RejectedWith .illegalCommand s t := by
      rw [cmdWrite_command (decode_encode i)]
      exact bulkNeedsTheVectorArray s i hb hv hi
    rcases hw with rfl | rfl
    · exact hbulk (.inl rfl)
    · exact hbulk (.inr rfl)

/-! ### BusErrors of a step (60_exceptions.md R215, R216, R219, R220) -/

/-- Settles O40: of the three ends of a turn (`unitStep_cases`) only the failing read has a source byte that is not
`MemOK`; it is a BusError over the source bytes. -/
theorem failingReadEndsTheRun : Obligations.FailingReadEndsTheRun := by
  intro path s _ _ hrun n hfail
  have hreads : failing s.cfg (byteRange (stepSrc n s) n) ≠ [] := failing_range_ne_nil.2 hfail
  have hfits : stepSrc n s + n ≤ addressLimit := hrun.src_step_fits.trans hrun.srcFits
  rcases unitStep_cases hrun.mode with ⟨_, he⟩ | ⟨hok, _⟩ | ⟨hok, _⟩
  · rw [he]
    obtain ⟨a, hlo, hhi, hbad, hat⟩ := busError_at (SameButWorking.refl s) hfits hreads
    exact ⟨a, hlo, hhi, hbad, hat, rfl⟩
  · exact absurd hok hreads
  · exact absurd hok hreads

/-- Settles O41: of the three ends of a turn (`unitStep_cases`) only the failing write has good reads and a bad destination
byte; it is a BusError over the destination bytes, and a turn changes no other byte (`unitStep_mem`). -/
theorem failingWriteEndsTheRun : Obligations.FailingWriteEndsTheRun := by
  intro path s hi _ hrun n hsrc hfail
  have hwrites : failing s.cfg (byteRange (stepDst n s) n) ≠ [] := failing_range_ne_nil.2 hfail
  have hfits : stepDst n s + n ≤ addressLimit := hrun.dst_step_fits.trans hrun.dstFits
  have hframe : ∀ x, x < stepDst n s ∨ stepDst n s + n ≤ x → (unitStep s).mem.read x = s.mem.read x :=
    fun x hx => unitStep_mem hrun.mode hi.memory hx
  rcases unitStep_cases hrun.mode with ⟨hne, _⟩ | ⟨_, _, u, hu, he⟩ | ⟨_, hok, _⟩
  · exact absurd (failing_range_eq_nil.2 hsrc) hne
  · have hsame : SameButWorking s { unspecify (stepDst n s) n u with mem := s.mem } := { hu with mem := rfl }
    obtain ⟨a, hlo, hhi, hbad, hat⟩ := busError_at hsame hfits hwrites
    exact ⟨a, hlo, hhi, hbad, he ▸ hat, hframe⟩
  · exact absurd hok hwrites

/-! ### The launch-level error record (60_exceptions.md R216, R232) -/

/-- From `s` to `t` no error was taken: the record is as before, and STATUS holds no error it did not hold. -/
def NoNewError (s t : State) : Prop :=
  t.errorRecord = s.errorRecord ∧ (t.status.err = s.status.err ∨ t.status.err = none)

/-- From `s` to `t` one error was taken: the one STATUS and ERR_ADDR of `t` hold is added to the record. -/
def OneNewError (s t : State) : Prop :=
  ∃ e, t.errorRecord = s.errorRecord ++ [⟨e, t.errAddr⟩] ∧ t.status.err = some e

theorem NoNewError.refl (s : State) : NoNewError s s := ⟨rfl, .inl rfl⟩

theorem unitStep_newErrors (s : State) : NoNewError s (unitStep s) ∨ OneNewError s (unitStep s) := by
  rcases unitStep_errors s with h | ⟨a, hrec, herr, rfl⟩
  · exact .inl h
  · exact .inr ⟨_, hrec, herr⟩

theorem cmdWrite_newErrors {w : Word} {s t : State} (h : cmdWrite w s = .next t) :
    NoNewError s t ∨ OneNewError s t := by
  rcases cmdWrite_next h with rfl | ⟨_, rfl | ⟨e, _, rfl⟩ | ⟨_, _, _, _, rfl⟩⟩
  · exact .inl (.refl t)
  · exact .inl ⟨rfl, .inr rfl⟩
  · exact .inr ⟨e, rfl, rfl⟩
  · exact .inl ⟨rfl, .inr rfl⟩

theorem writeReg_noNewError (r : Reg) (v : Word) (s : State) : NoNewError s (writeReg r v s) := by
  rcases writeReg_cases r v s with h | ⟨_, ⟨_, h⟩ | ⟨_, h⟩ | ⟨_, h⟩⟩ <;> rw [h] <;> exact ⟨rfl, .inl rfl⟩

/-- An event takes one error or none: only commands and turns of the unit take any, and a reset keeps the record. -/
theorem handle_newErrors {e : Event} {s t : State} (h : handle e s = .next t) :
    NoNewError s t ∨ OneNewError s t := by
  cases e with
  | regRead off width =>
    obtain ⟨_, _, rfl⟩ := hostRegRead_next h
    exact .inl ⟨rfl, .inl rfl⟩
  | regWrite off width v =>
    rcases hostRegWrite_next h with ⟨_, hc⟩ | ⟨r, _, _, rfl⟩
    · exact cmdWrite_newErrors hc
    · exact .inl (writeReg_noNewError r v s)
  | poll off mask v =>
    obtain ⟨_, _, ⟨_, rfl⟩ | ⟨_, rfl⟩⟩ := hostPoll_next h <;> exact .inl ⟨rfl, .inl rfl⟩
  | dataRead a =>
    obtain ⟨_, ⟨_, _, rfl⟩ | ⟨_, rfl⟩⟩ := hostDataRead_next h <;> exact .inl ⟨rfl, .inl rfl⟩
  | dataWrite a v =>
    obtain ⟨_, ⟨_, _, rfl⟩ | ⟨_, rfl⟩⟩ := hostDataWrite_next h <;> exact .inl ⟨rfl, .inl rfl⟩
  | unitTurn =>
    obtain rfl := Host.Outcome.next.inj h
    exact unitStep_newErrors s
  | reset =>
    obtain rfl := Host.Outcome.next.inj h
    exact .inl ⟨rfl, .inr rfl⟩

theorem step_newErrors {s t : State} (h : step s = .next t) : NoNewError s t ∨ OneNewError s t := by
  cases hp : s.pending with
  | nil =>
    rw [step_unit hp] at h
    obtain rfl := Host.Outcome.next.inj h
    exact unitStep_newErrors s
  | cons e rest =>
    rw [step_event hp] at h
    exact (handle_newErrors h :)

/-- Settles O52: a step adds nothing to the record, or the one error it puts into STATUS and ERR_ADDR
(`step_newErrors`). -/
theorem errorRecordOnlyGrows : Obligations.ErrorRecordOnlyGrows := by
  intro s t h
  rcases step_newErrors h with ⟨hrec, herr⟩ | ⟨e, hrec, herr⟩
  · exact ⟨[], by rw [hrec, List.append_nil], fun _ => herr, nofun⟩
  · refine ⟨_, hrec, nofun, fun r hr => ?_⟩
    obtain rfl := List.mem_singleton.1 hr
    exact ⟨herr, rfl⟩

end Sys2Proof.Machine
end


section
/-! Reset, the order of turns, and PROGRESS along a run: the statements of 70_reset_and_hazards.md. -/

namespace Sys2Proof.Machine

/-! ### The order of turns (00_scope.md R15, 70_reset_and_hazards.md R240, R251) -/

/-- Settles O43: `step_unit`, `step_event` and `unitStep_idle` are its three clauses. -/
theorem turnsOfTheUnit : Obligations.TurnsOfTheUnit := fun _ =>
  ⟨step_unit, fun _ hp => step_event hp, unitStep_idle⟩

/-! ### Reset (70_reset_and_hazards.md R240, R241) -/

/-- Settles O54: the step is `resetUnit`, whose registers are those of the reset state by definition. It keeps every byte
outside the step in progress (`resetUnit_read_other`), which has no bytes while idle (`LegalState.outside_step`). -/
theorem resetAtAnyTime : Obligations.ResetAtAnyTime := by
  intro s rest hi hp
  refine ⟨resetUnit { s with pending := rest }, step_event hp, rfl, fun x hx => ?_⟩
  have hout : x < stepDst (stepBytes s) s ∨ stepDst (stepBytes s) s + stepBytes s ≤ x := by
    rcases hx with hidle | hout
    · exact hi.outside_step fun ⟨hb, _⟩ => Bool.false_ne_true (hidle.symm.trans hb)
    · exact hout
  exact resetUnit_read_other (s := { s with pending := rest }) hi.memory hout

/-! ### PROGRESS along a run (10_state.md R32, 70_reset_and_hazards.md R253) -/

/-- What is pending is no part of what holds of a run. -/
theorem RunInv.with_pending {path : Path} {s : State} (h : RunInv path s) (p : List Event) :
    RunInv path { s with pending := p } :=
  { h with }

/-- The step in progress is short of the length by its own bytes at least. -/
theorem RunInv.progress_step_fits {path : Path} {s : State} (h : RunInv path s) :
    s.progress.toNat + path.granularity ≤ s.seq.len.toNat := by
  rw [h.progress, ← Nat.mul_succ]
  exact h.step_in_range

/-- A turn of the unit in a run ends in BusError with PROGRESS as it was, or raises PROGRESS by the granularity. -/
theorem unitStep_progress {path : Path} {s : State} (h : RunInv path s) :
    ((unitStep s).progress = s.progress ∧ (unitStep s).status.err = some .busError) ∨
      (unitStep s).progress.toNat = s.progress.toNat + path.granularity := by
  rcases unitStep_cases h.mode with ⟨_, he⟩ | ⟨_, _, u, hu, he⟩ | ⟨_, _, w, hw, he⟩ <;> rw [he]
  · exact .inl ⟨busError_progress _ s, rfl⟩
  · exact .inl ⟨by rw [busError_progress, unspecify_progress, hu.progress], rfl⟩
  · right
    rw [advance_progress, hw.seq, h.next_fits.2, h.progress, Nat.mul_succ]

/-- A register write that has a next state changes nothing while BUSY = 1, a command neither (10_state.md R37). -/
theorem hostRegWrite_busy_next {off : Byte} {width : Width} {v : Word} {s t : State} (hb : s.status.busy = true)
    (h : hostRegWrite off width v s = .next t) : t = s := by
  rcases hostRegWrite_next h with ⟨_, hc⟩ | ⟨r, _, _, rfl⟩
  · exact (Host.Outcome.next.inj ((cmdWrite_busy hb v).symm.trans hc)).symm
  · exact writeReg_busy hb r v

/-- During a run every event but a reset leaves PROGRESS as it was or, a turn of the unit, raises it by the granularity. -/
theorem handle_progress {path : Path} {e : Event} {s t : State} (hb : s.status.busy = true) (hrun : RunInv path s)
    (he : e ≠ .reset) (h : handle e s = .next t) :
    t.progress = s.progress ∨ t.progress.toNat = s.progress.toNat + path.granularity := by
  cases e with
  | regRead off width =>
    obtain ⟨_, _, rfl⟩ := hostRegRead_next h
    exact .inl rfl
  | regWrite off width v =>
    obtain rfl := hostRegWrite_busy_next hb h
    exact .inl rfl
  | poll off mask v =>
    obtain ⟨_, _, ⟨_, rfl⟩ | ⟨_, rfl⟩⟩ := hostPoll_next h <;> exact .inl rfl
  | dataRead a =>
    obtain ⟨_, ⟨_, _, rfl⟩ | ⟨_, rfl⟩⟩ := hostDataRead_next h <;> exact .inl rfl
  | dataWrite a v =>
    obtain ⟨_, ⟨_, _, rfl⟩ | ⟨_, rfl⟩⟩ := hostDataWrite_next h <;> exact .inl rfl
  | unitTurn =>
    obtain rfl := Host.Outcome.next.inj h
    exact (unitStep_progress hrun).imp_left And.left
  | reset => exact absurd rfl he

/-- During a run every step but a reset leaves PROGRESS as it was or raises it by the granularity. -/
theorem step_progress {path : Path} {s t : State} (hb : s.status.busy = true) (hrun : RunInv path s)
    (h : step s = .next t) (hreset : ∀ rest, s.pending ≠ .reset :: rest) :
    t.progress = s.progress ∨ t.progress.toNat = s.progress.toNat + path.granularity := by
  cases hp : s.pending with
  | nil =>
    rw [step_unit hp] at h
    exact handle_progress (e := .unitTurn) hb hrun nofun h
  | cons e rest =>
    rw [step_event hp] at h
    have he : e ≠ .reset := by rintro rfl; exact hreset rest hp
    exact handle_progress (s := { s with pending := rest }) hb (hrun.with_pending rest) he h

/-- Settles O53: a step keeps PROGRESS or raises it by the granularity (`step_progress`), which stays within the length
(`RunInv.progress_step_fits`); with nothing pending the step is a turn, and one without BusError raises it
(`unitStep_progress`). -/
theorem progressNeverFallsInARun : Obligations.ProgressNeverFallsInARun := by
  intro path s t _ hb hrun h hreset
  have hfits := hrun.progress_step_fits
  have hbounds : s.progress.toNat ≤ t.progress.toNat ∧ t.progress.toNat ≤ s.seq.len.toNat := by
    rcases step_progress hb hrun h hreset with hkept | hraised
    · rw [hkept]; omega
    · omega
  refine ⟨hbounds.1, hbounds.2, fun hp hnone => ?_⟩
  rw [step_unit hp] at h
  obtain rfl := Host.Outcome.next.inj h
  rcases unitStep_progress hrun with ⟨_, herr⟩ | hraised
  · exact nomatch hnone.symm.trans herr
  · exact hraised

end Sys2Proof.Machine
end
